-- ==== Sys2Proof/Word.lean ====
section
/-! DEFINITION. The words of the CORE: bytes, 16-bit words, addresses of 12 bits and the nibbles of an opcode
(spec 00_scope.md R11, R12; 30_encoding.md R90). -/

namespace Sys2Proof

/-- An unsigned 8-bit value: a general register, a timer, a byte of memory (R31, R38, R68). -/
abbrev Byte := BitVec 8

/-- A 16-bit value: an opcode, the program counter, the index register, a stack entry (R30, R90). -/
abbrev Word := BitVec 16

/-- A 4-bit field of an opcode (R90): N, or a register index X or Y. -/
abbrev Nibble := BitVec 4

/-- A register index 0..15 (R91, R92). -/
abbrev RegIdx := BitVec 4

/-- The 12-bit address field NNN (R95). -/
abbrev Addr12 := BitVec 12

end Sys2Proof
end

