-- ==== Sys2Proof/Config.lean ====
section
/-! DEFINITION. The implementation parameters of spec 00_scope.md R9: the fixed ones as constants, the two that a
model takes as arguments as `Params`, and the collaborators' free answers (R17) as constants without a body. -/

namespace Sys2Proof.Config

/-- MEM_SIZE (R9, R68): addresses 0..4095. -/
def memSize : Nat := 4096

/-- PROGRAM_ORIGIN (R9): the pc at creation. -/
def programOrigin : Word := 0x200#16

/-- FB_WIDTH (R9). -/
def fbWidth : Nat := 64

/-- FB_HEIGHT (R9). -/
def fbHeight : Nat := 32

/-- FONT_BASE (R9): where the glyph of digit 0 is assumed to lie. -/
def fontBase : Nat := 0

/-- FONT_STRIDE (R9): bytes per glyph. -/
def fontStride : Nat := 5

/-- What a byte of memory that nothing has written reads as: the reset content 0 (R45, R67). -/
def unlistedByte : Byte := 0#8

/-- FREE VALUE (R17, R331): `KeyPressed(k)` as the keypad answers it in the step numbered by the first argument,
where the host has handed in no answer. DESIGN CHOICE (log entry 4), safe. -/
opaque keyPressed : Nat → Byte → Bool

/-- FREE VALUE (R17, R331): `KeyEvent()` as the keypad answers it in the step numbered by the argument, where the
host has handed in no answer. DESIGN CHOICE (log entry 4), safe. -/
opaque keyEvent : Nat → Option Byte

/-- FREE VALUE (R17, R332): `RandomByte()` as the source answers it in the step numbered by the argument, where the
host has handed in no answer. DESIGN CHOICE (log entry 4), safe. -/
opaque randomByte : Nat → Byte

end Sys2Proof.Config

namespace Sys2Proof

/-- The two parameters a model takes as arguments (R9). -/
structure Params where
  /-- STACK_DEPTH: the capacity of the call stack; a natural number ≥ 1, default 16 (R9, R39). -/
  stackDepth : Nat
  /-- STRICT_DECODE: whether an unmatched word raises UnsupportedOpcode; default false (R9, R105). -/
  strictDecode : Bool
  deriving DecidableEq, Repr

/-- The defaults of R9. -/
def Params.default : Params := { stackDepth := 16, strictDecode := false }

/-- R9: STACK_DEPTH is a natural number ≥ 1. -/
abbrev Params.ok (p : Params) : Prop := 1 ≤ p.stackDepth

end Sys2Proof
end

