-- ==== Sys2Proof/Syntax.lean ====
section
/-! DEFINITION. The instructions: one constructor per row of spec/opcode_table.json, in the table's order, and the
35 operation kinds of 30_encoding.md R97. An instruction carries every bit of its word that is not fixed by its row,
the ignored ones (R108) included, so that no bit of an encoding is lost; the meanings do not look at the ignored
ones (log entry 7). -/

namespace Sys2Proof

/-- The closed set of operation kinds (R97), in the order of that rule. -/
inductive Kind where
  | SYS | CLS | RET | JP | CALL | SE_IMM | SNE_IMM | SE_REG | LD_IMM | ADD_IMM | LD_REG | OR | AND | XOR | ADD_REG
  | SUB | SHR | SUBN | SHL | SNE_REG | LD_INDEX | JP_OFFSET | RND | DRW | SKP | SKNP | LD_FROM_DELAY | LD_KEYPRESS
  | LD_TO_DELAY | LD_TO_SOUND | ADD_INDEX | LD_SPRITE_ADDR | LD_BCD | LD_REGS_TO_MEM | LD_MEM_TO_REGS
  deriving DecidableEq, Repr

/-- An instruction: a row of the opcode table with its fields (R96). -/
inductive Instr where
  /-- `0000 ---- ---- 0000` CLS (R270); the ignored N1 N2. -/
  | cls (ignored : BitVec 8)
  /-- `0000 ---- ---- 1110` RET (R171); the ignored N1 N2. -/
  | ret (ignored : BitVec 8)
  /-- `0001 aaaa aaaa aaaa` JP NNN (R172). -/
  | jp (nnn : Addr12)
  /-- `0010 aaaa aaaa aaaa` CALL NNN (R173). -/
  | call (nnn : Addr12)
  /-- `0011 xxxx kkkk kkkk` SE_IMM Vx,KK (R175). -/
  | seImm (x : RegIdx) (kk : Byte)
  /-- `0100 xxxx kkkk kkkk` SNE_IMM Vx,KK (R176). -/
  | sneImm (x : RegIdx) (kk : Byte)
  /-- `0101 xxxx yyyy 0000` SE_REG Vx,Vy (R177). -/
  | seReg (x y : RegIdx)
  /-- `0110 xxxx kkkk kkkk` LD_IMM Vx,KK (R200). -/
  | ldImm (x : RegIdx) (kk : Byte)
  /-- `0111 xxxx kkkk kkkk` ADD_IMM Vx,KK (R201). -/
  | addImm (x : RegIdx) (kk : Byte)
  /-- `1000 xxxx yyyy 0000` LD_REG Vx,Vy (R202). -/
  | ldReg (x y : RegIdx)
  /-- `1000 xxxx yyyy 0001` OR Vx,Vy (R203). -/
  | orReg (x y : RegIdx)
  /-- `1000 xxxx yyyy 0010` AND Vx,Vy (R204). -/
  | andReg (x y : RegIdx)
  /-- `1000 xxxx yyyy 0011` XOR Vx,Vy (R205). -/
  | xorReg (x y : RegIdx)
  /-- `1000 xxxx yyyy 0100` ADD_REG Vx,Vy (R206). -/
  | addReg (x y : RegIdx)
  /-- `1000 xxxx yyyy 0101` SUB Vx,Vy (R207). -/
  | sub (x y : RegIdx)
  /-- `1000 xxxx ---- 0110` SHR Vx (R208); the ignored Y. -/
  | shr (x y : RegIdx)
  /-- `1000 xxxx yyyy 0111` SUBN Vx,Vy (R209). -/
  | subn (x y : RegIdx)
  /-- `1000 xxxx ---- 1110` SHL Vx (R210); the ignored Y. -/
  | shl (x y : RegIdx)
  /-- `1001 xxxx yyyy 0000` SNE_REG Vx,Vy (R178). -/
  | sneReg (x y : RegIdx)
  /-- `1010 aaaa aaaa aaaa` LD_INDEX NNN (R240). -/
  | ldIndex (nnn : Addr12)
  /-- `1011 aaaa aaaa aaaa` JP_OFFSET NNN (R174). -/
  | jpOffset (nnn : Addr12)
  /-- `1100 xxxx kkkk kkkk` RND Vx,KK (R211). -/
  | rnd (x : RegIdx) (kk : Byte)
  /-- `1101 xxxx yyyy nnnn` DRW Vx,Vy,N (R271). -/
  | drw (x y : RegIdx) (n : Nibble)
  /-- `1110 xxxx 1001 1110` SKP Vx (R290). -/
  | skp (x : RegIdx)
  /-- `1110 xxxx 1010 0001` SKNP Vx (R291). -/
  | sknp (x : RegIdx)
  /-- `1111 xxxx 0000 0111` LD_FROM_DELAY Vx (R293). -/
  | ldFromDelay (x : RegIdx)
  /-- `1111 xxxx 0000 1010` LD_KEYPRESS Vx (R292). -/
  | ldKeypress (x : RegIdx)
  /-- `1111 xxxx 0001 0101` LD_TO_DELAY Vx (R294). -/
  | ldToDelay (x : RegIdx)
  /-- `1111 xxxx 0001 1000` LD_TO_SOUND Vx (R295). -/
  | ldToSound (x : RegIdx)
  /-- `1111 xxxx 0001 1110` ADD_INDEX Vx (R241). -/
  | addIndex (x : RegIdx)
  /-- `1111 xxxx 0010 1001` LD_SPRITE_ADDR Vx (R244). -/
  | ldSpriteAddr (x : RegIdx)
  /-- `1111 xxxx 0011 0011` LD_BCD Vx (R245). -/
  | ldBcd (x : RegIdx)
  /-- `1111 xxxx 0101 0101` LD_REGS_TO_MEM Vx (R246). -/
  | ldRegsToMem (x : RegIdx)
  /-- `1111 xxxx 0110 0101` LD_MEM_TO_REGS Vx (R247). -/
  | ldMemToRegs (x : RegIdx)
  /-- `0000 ---- ---- ----` SYS of group 0x0, N3 neither 0x0 nor 0xE (R99, R170); the ignored NNN. -/
  | sys (nnn : Addr12)
  /-- `---- ---- ---- ----` SYS for a word that matches no other row (R104, R170); the whole ignored word. -/
  | sysUnmatched (op : Word)
  deriving DecidableEq, Repr

/-- The operation kind of an instruction: both SYS rows are the one kind SYS (R97, R113). -/
def Instr.kind : Instr → Kind
  | .cls _ => .CLS
  | .ret _ => .RET
  | .jp _ => .JP
  | .call _ => .CALL
  | .seImm _ _ => .SE_IMM
  | .sneImm _ _ => .SNE_IMM
  | .seReg _ _ => .SE_REG
  | .ldImm _ _ => .LD_IMM
  | .addImm _ _ => .ADD_IMM
  | .ldReg _ _ => .LD_REG
  | .orReg _ _ => .OR
  | .andReg _ _ => .AND
  | .xorReg _ _ => .XOR
  | .addReg _ _ => .ADD_REG
  | .sub _ _ => .SUB
  | .shr _ _ => .SHR
  | .subn _ _ => .SUBN
  | .shl _ _ => .SHL
  | .sneReg _ _ => .SNE_REG
  | .ldIndex _ => .LD_INDEX
  | .jpOffset _ => .JP_OFFSET
  | .rnd _ _ => .RND
  | .drw _ _ _ => .DRW
  | .skp _ => .SKP
  | .sknp _ => .SKNP
  | .ldFromDelay _ => .LD_FROM_DELAY
  | .ldKeypress _ => .LD_KEYPRESS
  | .ldToDelay _ => .LD_TO_DELAY
  | .ldToSound _ => .LD_TO_SOUND
  | .addIndex _ => .ADD_INDEX
  | .ldSpriteAddr _ => .LD_SPRITE_ADDR
  | .ldBcd _ => .LD_BCD
  | .ldRegsToMem _ => .LD_REGS_TO_MEM
  | .ldMemToRegs _ => .LD_MEM_TO_REGS
  | .sys _ => .SYS
  | .sysUnmatched _ => .SYS

end Sys2Proof
end

