-- ==== Sys2Proof/Decode.lean ====
section
/-! DEFINITION. The decoder of spec 30_encoding.md (R90 to R107), total on every word and on every list of bytes; the
encoder, written from the same encodings; and the table of opcode_table.json as data, read as R113 says. -/

namespace Sys2Proof

/-! ## The fields of an opcode (R90 to R95) -/

/-- N0, bits 15..12 (R90). -/
def opN0 (op : Word) : Nibble := op.extractLsb' 12 4
/-- N1, bits 11..8, also the register index X (R90, R91). -/
def opN1 (op : Word) : Nibble := op.extractLsb' 8 4
/-- N2, bits 7..4, also the register index Y (R90, R92). -/
def opN2 (op : Word) : Nibble := op.extractLsb' 4 4
/-- N3, bits 3..0, also the row count N (R90, R93). -/
def opN3 (op : Word) : Nibble := op.extractLsb' 0 4
/-- KK, bits 7..0 (R94). -/
def opKK (op : Word) : Byte := op.extractLsb' 0 8
/-- NNN, bits 11..0 (R95). -/
def opNNN (op : Word) : Addr12 := op.extractLsb' 0 12
/-- N1 and N2 together, bits 11..4: what CLS and RET ignore (R99, R108). -/
def opN12 (op : Word) : BitVec 8 := op.extractLsb' 4 8

/-! ## The decoder -/

/-- Why a decoder answers no instruction. -/
inductive DecodeError where
  /-- The word matches no row of R98 and STRICT_DECODE is true: R107's `Unsupported` (R105). -/
  | unsupported (op : Word)
  /-- Fewer than two bytes are left, so there is no opcode (R90). -/
  | truncated
  deriving DecidableEq, Repr

/-- R107's UNMATCHED: SYS by default (R104), `Unsupported` under strict decode (R105). -/
def unmatched (strict : Bool) (op : Word) : Except DecodeError Instr :=
  if strict then .error (.unsupported op) else .ok (.sysUnmatched op)

/-- Group 0x8, decoded on N3 alone (R100). -/
def decodeGroup8 (strict : Bool) (op : Word) : Except DecodeError Instr :=
  match opN3 op with
  | 0x0#4 => .ok (.ldReg (opN1 op) (opN2 op))
  | 0x1#4 => .ok (.orReg (opN1 op) (opN2 op))
  | 0x2#4 => .ok (.andReg (opN1 op) (opN2 op))
  | 0x3#4 => .ok (.xorReg (opN1 op) (opN2 op))
  | 0x4#4 => .ok (.addReg (opN1 op) (opN2 op))
  | 0x5#4 => .ok (.sub (opN1 op) (opN2 op))
  | 0x6#4 => .ok (.shr (opN1 op) (opN2 op))
  | 0x7#4 => .ok (.subn (opN1 op) (opN2 op))
  | 0xE#4 => .ok (.shl (opN1 op) (opN2 op))
  | _ => unmatched strict op

/-- Group 0xE, decoded on the pair (N2, N3) (R102). -/
def decodeGroupE (strict : Bool) (op : Word) : Except DecodeError Instr :=
  match opKK op with
  | 0x9E#8 => .ok (.skp (opN1 op))
  | 0xA1#8 => .ok (.sknp (opN1 op))
  | _ => unmatched strict op

/-- Group 0xF, decoded on the pair (N2, N3) (R103). -/
def decodeGroupF (strict : Bool) (op : Word) : Except DecodeError Instr :=
  match opKK op with
  | 0x07#8 => .ok (.ldFromDelay (opN1 op))
  | 0x0A#8 => .ok (.ldKeypress (opN1 op))
  | 0x15#8 => .ok (.ldToDelay (opN1 op))
  | 0x18#8 => .ok (.ldToSound (opN1 op))
  | 0x1E#8 => .ok (.addIndex (opN1 op))
  | 0x29#8 => .ok (.ldSpriteAddr (opN1 op))
  | 0x33#8 => .ok (.ldBcd (opN1 op))
  | 0x55#8 => .ok (.ldRegsToMem (opN1 op))
  | 0x65#8 => .ok (.ldMemToRegs (opN1 op))
  | _ => unmatched strict op

/-- Group 0x0, decoded on N3 alone (R99; 90_conflicts.md C1). -/
def decodeGroup0 (op : Word) : Except DecodeError Instr :=
  match opN3 op with
  | 0x0#4 => .ok (.cls (opN12 op))
  | 0xE#4 => .ok (.ret (opN12 op))
  | _ => .ok (.sys (opNNN op))

/-- R107's `Decode`, a total, pure function of the word (R106); `strict` is STRICT_DECODE. -/
def decode (strict : Bool) (op : Word) : Except DecodeError Instr :=
  match opN0 op with
  | 0x0#4 => decodeGroup0 op
  | 0x1#4 => .ok (.jp (opNNN op))
  | 0x2#4 => .ok (.call (opNNN op))
  | 0x3#4 => .ok (.seImm (opN1 op) (opKK op))
  | 0x4#4 => .ok (.sneImm (opN1 op) (opKK op))
  | 0x5#4 => if opN3 op = 0x0#4 then .ok (.seReg (opN1 op) (opN2 op)) else unmatched strict op
  | 0x6#4 => .ok (.ldImm (opN1 op) (opKK op))
  | 0x7#4 => .ok (.addImm (opN1 op) (opKK op))
  | 0x8#4 => decodeGroup8 strict op
  | 0x9#4 => if opN3 op = 0x0#4 then .ok (.sneReg (opN1 op) (opN2 op)) else unmatched strict op
  | 0xA#4 => .ok (.ldIndex (opNNN op))
  | 0xB#4 => .ok (.jpOffset (opNNN op))
  | 0xC#4 => .ok (.rnd (opN1 op) (opKK op))
  | 0xD#4 => .ok (.drw (opN1 op) (opN2 op) (opN3 op))
  | 0xE#4 => decodeGroupE strict op
  | _ => decodeGroupF strict op

/-- The opcode two bytes make, the byte at the lower address first: big-endian (R60, D1; log entry 11). -/
def wordOfBytes (first second : Byte) : Word := first ++ second

/-- The byte an opcode keeps at the lower address (R60). -/
def highByte (op : Word) : Byte := op.extractLsb' 8 8

/-- The byte an opcode keeps at the next address (R60). -/
def lowByte (op : Word) : Byte := op.extractLsb' 0 8

/-- The decoder on bytes: the first instruction and the bytes after it. Every instruction has 2 bytes (R90). -/
def decodeBytes (strict : Bool) : List Byte → Except DecodeError (Instr × List Byte)
  | first :: second :: rest => (decode strict (wordOfBytes first second)).map fun i => (i, rest)
  | _ => .error .truncated

/-- The instruction the decoder reads from the bits `w` of an opcode-table row, under the default parameters (R9).
An opcode is one 16-bit word, so every bit above `nbits` and above 16 is 0. -/
def decodeTableWord (nbits w : Nat) : Option Instr :=
  let op : Word := BitVec.ofNat 16 (w % 2 ^ nbits)
  match decodeBytes Params.default.strictDecode [highByte op, lowByte op] with
  | .ok (i, _) => some i
  | .error _ => none

/-! ## The encoder -/

/-- The word of an instruction, from the `encoding` strings of opcode_table.json. -/
def encode : Instr → Word
  | .cls ignored => 0x0#4 ++ ignored ++ 0x0#4
  | .ret ignored => 0x0#4 ++ ignored ++ 0xE#4
  | .jp nnn => 0x1#4 ++ nnn
  | .call nnn => 0x2#4 ++ nnn
  | .seImm x kk => 0x3#4 ++ x ++ kk
  | .sneImm x kk => 0x4#4 ++ x ++ kk
  | .seReg x y => 0x5#4 ++ x ++ y ++ 0x0#4
  | .ldImm x kk => 0x6#4 ++ x ++ kk
  | .addImm x kk => 0x7#4 ++ x ++ kk
  | .ldReg x y => 0x8#4 ++ x ++ y ++ 0x0#4
  | .orReg x y => 0x8#4 ++ x ++ y ++ 0x1#4
  | .andReg x y => 0x8#4 ++ x ++ y ++ 0x2#4
  | .xorReg x y => 0x8#4 ++ x ++ y ++ 0x3#4
  | .addReg x y => 0x8#4 ++ x ++ y ++ 0x4#4
  | .sub x y => 0x8#4 ++ x ++ y ++ 0x5#4
  | .shr x y => 0x8#4 ++ x ++ y ++ 0x6#4
  | .subn x y => 0x8#4 ++ x ++ y ++ 0x7#4
  | .shl x y => 0x8#4 ++ x ++ y ++ 0xE#4
  | .sneReg x y => 0x9#4 ++ x ++ y ++ 0x0#4
  | .ldIndex nnn => 0xA#4 ++ nnn
  | .jpOffset nnn => 0xB#4 ++ nnn
  | .rnd x kk => 0xC#4 ++ x ++ kk
  | .drw x y n => 0xD#4 ++ x ++ y ++ n
  | .skp x => 0xE#4 ++ x ++ 0x9E#8
  | .sknp x => 0xE#4 ++ x ++ 0xA1#8
  | .ldFromDelay x => 0xF#4 ++ x ++ 0x07#8
  | .ldKeypress x => 0xF#4 ++ x ++ 0x0A#8
  | .ldToDelay x => 0xF#4 ++ x ++ 0x15#8
  | .ldToSound x => 0xF#4 ++ x ++ 0x18#8
  | .addIndex x => 0xF#4 ++ x ++ 0x1E#8
  | .ldSpriteAddr x => 0xF#4 ++ x ++ 0x29#8
  | .ldBcd x => 0xF#4 ++ x ++ 0x33#8
  | .ldRegsToMem x => 0xF#4 ++ x ++ 0x55#8
  | .ldMemToRegs x => 0xF#4 ++ x ++ 0x65#8
  | .sys nnn => 0x0#4 ++ nnn
  | .sysUnmatched op => op

/-- The bytes of an instruction as memory holds them (R60). -/
def encodeBytes (i : Instr) : List Byte := [highByte (encode i), lowByte (encode i)]

/-! ## The opcode table as data (R113) -/

/-- A row of opcode_table.json: a word `op` is the row's iff `op &&& mask = match`. -/
structure OpcodeRow where
  kind : Kind
  pattern : Word
  mask : Word
  deriving DecidableEq, Repr

/-- The 34 rows that are no SYS row, in the table's order. -/
def opcodeRows : List OpcodeRow :=
  [⟨.CLS, 0x0000, 0xF00F⟩, ⟨.RET, 0x000E, 0xF00F⟩, ⟨.JP, 0x1000, 0xF000⟩, ⟨.CALL, 0x2000, 0xF000⟩,
   ⟨.SE_IMM, 0x3000, 0xF000⟩, ⟨.SNE_IMM, 0x4000, 0xF000⟩, ⟨.SE_REG, 0x5000, 0xF00F⟩] ++
  [⟨.LD_IMM, 0x6000, 0xF000⟩, ⟨.ADD_IMM, 0x7000, 0xF000⟩, ⟨.LD_REG, 0x8000, 0xF00F⟩, ⟨.OR, 0x8001, 0xF00F⟩,
   ⟨.AND, 0x8002, 0xF00F⟩, ⟨.XOR, 0x8003, 0xF00F⟩, ⟨.ADD_REG, 0x8004, 0xF00F⟩, ⟨.SUB, 0x8005, 0xF00F⟩] ++
  [⟨.SHR, 0x8006, 0xF00F⟩, ⟨.SUBN, 0x8007, 0xF00F⟩, ⟨.SHL, 0x800E, 0xF00F⟩, ⟨.SNE_REG, 0x9000, 0xF00F⟩,
   ⟨.LD_INDEX, 0xA000, 0xF000⟩, ⟨.JP_OFFSET, 0xB000, 0xF000⟩, ⟨.RND, 0xC000, 0xF000⟩, ⟨.DRW, 0xD000, 0xF000⟩] ++
  [⟨.SKP, 0xE09E, 0xF0FF⟩, ⟨.SKNP, 0xE0A1, 0xF0FF⟩, ⟨.LD_FROM_DELAY, 0xF007, 0xF0FF⟩,
   ⟨.LD_KEYPRESS, 0xF00A, 0xF0FF⟩, ⟨.LD_TO_DELAY, 0xF015, 0xF0FF⟩, ⟨.LD_TO_SOUND, 0xF018, 0xF0FF⟩] ++
  [⟨.ADD_INDEX, 0xF01E, 0xF0FF⟩, ⟨.LD_SPRITE_ADDR, 0xF029, 0xF0FF⟩, ⟨.LD_BCD, 0xF033, 0xF0FF⟩,
   ⟨.LD_REGS_TO_MEM, 0xF055, 0xF0FF⟩, ⟨.LD_MEM_TO_REGS, 0xF065, 0xF0FF⟩]

/-- The group-0x0 SYS row, tried after the others. -/
def sysRow : OpcodeRow := ⟨.SYS, 0x0000, 0xF000⟩

/-- Whether a word is the row's. -/
def OpcodeRow.selects (r : OpcodeRow) (op : Word) : Bool := op &&& r.mask == r.pattern

/-- The first row that selects the word, in R113's order without the last, the fallback row. -/
def tableRow (op : Word) : Option OpcodeRow := (opcodeRows ++ [sysRow]).find? fun r => r.selects op

/-- The word matches no row but the fallback (R104, R105). -/
def matchesNoRow (op : Word) : Bool := (tableRow op).isNone

/-- The kind the table gives a word (R113); `none` is `Unsupported` (R105). -/
def tableKind (strict : Bool) (op : Word) : Option Kind :=
  match tableRow op with
  | some r => some r.kind
  | none => if strict then none else some .SYS

end Sys2Proof
end

