-- ==== Sys2Proof/Machine/State.lean ====
section
/-! DEFINITION. The state record of spec 10_state.md R30 as plain data, beside it the parameters and the ports of
the step transaction (40_cycle_driver.md R154), the faults of 60_exceptions.md R310, and the state after create
(R45, R340). -/

namespace Sys2Proof.Machine

/-- The four faults (R310), each returned to the host with the state unchanged (R315, R316). -/
inductive Fault where
  /-- An access of `count` bytes from `start` reaches past 4095 (R311). Raised by the fetch, DRW, LD_BCD,
  LD_REGS_TO_MEM, LD_MEM_TO_REGS and load_program. The spec's own outcome: safe. -/
  | memoryOutOfBounds (start count : Nat)
  /-- A push beyond STACK_DEPTH (R312). Raised by CALL. The spec's own outcome: safe. -/
  | stackOverflow
  /-- A pop on the empty stack (R313). Raised by RET. The spec's own outcome: safe. -/
  | stackUnderflow
  /-- The fetched word matches no row and STRICT_DECODE is true (R314). Raised by step. The spec's own outcome:
  safe. -/
  | unsupportedOpcode (op : Word)
  deriving DecidableEq, Repr

/-- The code of a fault, its position in R310's list. -/
def Fault.code : Fault → Nat
  | .memoryOutOfBounds _ _ => 0
  | .stackOverflow => 1
  | .stackUnderflow => 2
  | .unsupportedOpcode _ => 3

/-- Why the model gives no meaning. -/
inductive Refusal where
  /-- An instruction without a meaning; no arm of exec answers it any more. Safe. -/
  | notModelled (mnemonic : String)
  /-- A configuration with STACK_DEPTH = 0, which the model refuses to create (93_implementation_defined.md §1).
  Raised by requireDepth, for createChecked and the create transaction. Safe. -/
  | stackDepthZero
  deriving DecidableEq, Repr

/-- The status that `Ok` of a step carries (R131). -/
inductive Status where
  /-- The instruction completed. -/
  | executed
  /-- LD_KEYPRESS found no key press. -/
  | awaitingInput
  deriving DecidableEq, Repr

/-- The collaborators' answers that the host hands in with one step (R17, R154). -/
structure Answers where
  /-- The keys for which `KeyPressed` answers true. -/
  pressed : List Byte
  /-- What `KeyEvent()` answers. -/
  keyEvent : Option Byte
  /-- What `RandomByte()` answers. -/
  randomByte : Byte
  deriving DecidableEq, Repr

/-- Memory: the bytes that differ from what an unlisted address reads as, by address (R68; log entry 8). -/
abbrev Memory := List Host.Cell

/-- The framebuffer: 64 columns of 32 pixels (R41). -/
abbrev Framebuffer := Vector (Vector Bool 32) 64

/-- Every pixel 0 (R45, R270). -/
def Framebuffer.blank : Framebuffer := Vector.replicate 64 (Vector.replicate 32 false)

/-- The machine: the record of R30, and after it the fields that the spec does not count as machine state. -/
structure State where
  /-- V0..VF (R31); VF is register 15 (R32). -/
  v : Vector Byte 16
  /-- The index register I (R37). -/
  i : Word
  /-- The program counter (R35): the address of the executing opcode. -/
  pc : Word
  /-- The call stack S, top at the end (R39). -/
  stack : List Word
  /-- The delay timer DT (R38). -/
  dt : Byte
  /-- The sound timer ST (R38). -/
  st : Byte
  /-- The memory M (R68). -/
  mem : Memory
  /-- The framebuffer FB (R41). -/
  fb : Framebuffer
  /-- STACK_DEPTH and STRICT_DECODE (R9), never changed. DESIGN CHOICE (log entry 1), safe. -/
  params : Params
  /-- The answers the host hands in with the coming steps, oldest first (R154). DESIGN CHOICE (log entry 4), safe but for
  its reset value. -/
  answers : List Answers
  /-- How many steps have completed: the argument of the free answers. DESIGN CHOICE (log entry 4), safe but for its
  reset value. -/
  draws : Nat
  /-- The status the last completed step returned (R131); nothing reads it. DESIGN CHOICE (log entry 3), safe but
  for its reset value. -/
  status : Status
  deriving DecidableEq, Repr

/-- `create` with the given parameters: every component at its value of R45. The values of the model's own fields
answers, draws and status are DESIGN CHOICE (log entries 3 and 4): they are those of a machine that no host has used
yet; a later host reset is State.recreated, which keeps answers and draws. -/
def State.create (p : Params) : State where
  v := Vector.replicate 16 0#8
  i := 0#16
  pc := Config.programOrigin
  stack := []
  dt := 0#8
  st := 0#8
  mem := []
  fb := Framebuffer.blank
  params := p
  answers := []
  draws := 0
  status := .executed

/-- The machine right after reset, with the default parameters of R9 (R340; log entry 1). -/
def State.reset : State := State.create Params.default

end Sys2Proof.Machine
end

