-- ==== Sys2Proof/Machine/Ops.lean ====
section
/-! DEFINITION. The named operations the meanings are written with: raising a fault (spec 00_scope.md R16), memory
(R14, R62), the call stack (R15), the program counter (R136 to R138), the framebuffer (R41), and the collaborators
(R17).

There is no trap entry and no return from a trap in this hardware: a fault saves nothing, changes no mode and goes to
no handler; it is returned to the host with the state unchanged (R315, R316, R319, R320). `raise` is that one shared
operation. -/

namespace Sys2Proof.Machine

/-- What a meaning and a step answer. -/
abbrev Result := Host.Outcome State Fault Refusal

/-- R16's `raise`: the transaction ends with the fault, and no state change is committed (R316). -/
def raise (f : Fault) : Result := .fault f

/-! ## Memory -/

/-- The form memory is kept in: addresses strictly rising and inside the address space, and no entry equal to what an
unlisted address reads as (log entry 8). -/
abbrev Memory.wf (m : Memory) : Prop :=
  List.Pairwise (fun c d : Host.Cell => c.1 < d.1) m ∧
    ∀ c ∈ m, c.2 ≠ Config.unlistedByte ∧ c.1 < Config.memSize

/-- The byte at an address (R67). -/
def Memory.read : Memory → Nat → Byte
  | [], _ => Config.unlistedByte
  | (k, b) :: rest, a => if k = a then b else Memory.read rest a

/-- Put an entry before a list of later addresses, unless it equals what an unlisted address reads as. -/
def Memory.cons (a : Nat) (b : Byte) (m : Memory) : Memory :=
  if b = Config.unlistedByte then m else (a, b) :: m

/-- Memory with one byte written (R14), in canonical form again. -/
def Memory.write : Memory → Nat → Byte → Memory
  | [], a, b => Memory.cons a b []
  | (k, c) :: rest, a, b =>
    if a < k then Memory.cons a b ((k, c) :: rest)
    else if k = a then Memory.cons a b rest
    else (k, c) :: Memory.write rest a b

/-- The bytes at a, a + 1, ..., a + n - 1, each address a natural (R63, R242). -/
def Memory.readBlock (m : Memory) (a : Nat) : Nat → List Byte
  | 0 => []
  | n + 1 => m.read a :: Memory.readBlock m (a + 1) n

/-- Memory with the bytes written at a, a + 1, ..., in that order (R242). -/
def Memory.writeBlock (m : Memory) (a : Nat) : List Byte → Memory
  | [] => m
  | b :: bs => Memory.writeBlock (m.write a b) (a + 1) bs

/-- An access of n bytes from address a reaches past 4095 (R62, R311); an access of no bytes never does (R152,
R275). -/
def outOfBounds (a n : Nat) : Bool := decide (0 < n ∧ Config.memSize - 1 < a + n - 1)

/-- The bounds check in front of an access (R14, R62, R243): a fault with the start address and the byte count, or
the access's result. -/
def withBounds (a n : Nat) (result : State) : Result :=
  if outOfBounds a n then raise (.memoryOutOfBounds a n) else .next result

/-- The state with another memory. -/
def State.setMem (s : State) (m : Memory) : State := { s with mem := m }

/-! ## The program counter -/

/-- `npc`, the address of the next instruction in sequence (R19, R136). -/
def State.npc (s : State) : Word := s.pc + 2#16

/-- A completed instruction leaves the pc at the target (R138) and its step returns `Ok Executed` (R131). -/
def State.retire (s : State) (target : Word) : State := { s with pc := target, status := .executed }

/-- The end of an instruction that neither skips nor transfers control (R136). -/
def State.advance (s : State) : State := s.retire s.npc

/-- The end of a skip instruction: pc + 4 if the condition holds, else npc (R137). -/
def State.skipIf (s : State) (condition : Bool) : State :=
  s.retire (if condition then s.pc + 4#16 else s.npc)

/-- The end of a step that found no key: nothing changed, and the step returns `Ok AwaitingInput` (R131, R144). -/
def State.await (s : State) : State := { s with status := .awaitingInput }

/-! ## The call stack -/

/-- R15's `Push`: `none` is StackOverflow. The depth check is `≥` where R15 writes `=`: they agree wherever the depth
is within its bound (R39; log entry 10). -/
def State.push? (s : State) (a : Word) : Option State :=
  if s.params.stackDepth ≤ s.stack.length then none else some { s with stack := s.stack ++ [a] }

/-- R15's `Pop`: the top entry and the state without it; `none` is StackUnderflow. -/
def State.pop? (s : State) : Option (Word × State) :=
  match s.stack.getLast? with
  | none => none
  | some a => some (a, { s with stack := s.stack.dropLast })

/-! ## The index register and the timers -/

/-- The state with another index register (R37). -/
def State.setI (s : State) (value : Word) : State := { s with i := value }

/-- The state with another delay timer (R38). -/
def State.setDT (s : State) (value : Byte) : State := { s with dt := value }

/-- The state with another sound timer (R38). -/
def State.setST (s : State) (value : Byte) : State := { s with st := value }

/-! ## The framebuffer -/

/-- FB[px][py] (R13, R41). -/
def Framebuffer.pixel (fb : Framebuffer) (px : Fin 64) (py : Fin 32) : Bool := (fb.get px).get py

/-- FB[px][py] <- FB[px][py] ^ 1 (R271). -/
def Framebuffer.toggle (fb : Framebuffer) (px : Fin 64) (py : Fin 32) : Framebuffer :=
  fb.set px.val ((fb.get px).set py.val (!fb.pixel px py))

/-- The state with another framebuffer. -/
def State.setFB (s : State) (fb : Framebuffer) : State := { s with fb := fb }

/-- A column coordinate wraps modulo 64 (R272). -/
def wrapX (x : Nat) : Fin 64 := ⟨x % 64, Nat.mod_lt _ (by decide)⟩

/-- A row coordinate wraps modulo 32 (R272). -/
def wrapY (y : Nat) : Fin 32 := ⟨y % 32, Nat.mod_lt _ (by decide)⟩

/-- One sprite bit of R271's inner loop: a set bit toggles its pixel and collides with a pixel that was 1 (R273). Bit
7 of the byte is the leftmost column (R274; log entry 13). -/
def drawBit (x y : Nat) (byte : Byte) (acc : Framebuffer × Bool) (col : Nat) : Framebuffer × Bool :=
  if byte.getLsbD (7 - col) then
    (acc.1.toggle (wrapX (x + col)) (wrapY y), acc.2 || acc.1.pixel (wrapX (x + col)) (wrapY y))
  else acc

/-- One row of R271: its eight columns from the left. -/
def drawRow (x y : Nat) (byte : Byte) (acc : Framebuffer × Bool) : Framebuffer × Bool :=
  [0, 1, 2, 3, 4, 5, 6, 7].foldl (drawBit x y byte) acc

/-- R271's loop over the rows, from row coordinate y down: the framebuffer and whether a pixel collided. -/
def drawRows (x : Nat) : Nat → List Byte → Framebuffer × Bool → Framebuffer × Bool
  | _, [], acc => acc
  | y, byte :: rest, acc => drawRows x (y + 1) rest (drawRow x y byte acc)

/-! ## The collaborators (R17, R330 to R332; log entry 4) -/

/-- `KeyPressed(k)` in this step: the host's answer where it handed one in, else the free value. -/
def State.keyPressed (s : State) (k : Byte) : Bool :=
  match s.answers with
  | [] => Config.keyPressed s.draws k
  | a :: _ => a.pressed.contains k

/-- `KeyEvent()` in this step: the host's answer where it handed one in, else the free value. -/
def State.keyEvent (s : State) : Option Byte :=
  match s.answers with
  | [] => Config.keyEvent s.draws
  | a :: _ => a.keyEvent

/-- `RandomByte()` in this step: the host's answer where it handed one in, else the free value. -/
def State.randomByte (s : State) : Byte :=
  match s.answers with
  | [] => Config.randomByte s.draws
  | a :: _ => a.randomByte

/-- The end of a completed step: its answers are used up, and the next step draws anew (R331: two queries may answer
differently). -/
def State.nextDraw (s : State) : State := { s with answers := s.answers.tail, draws := s.draws + 1 }

/-- The host hands in the answers of the coming step (R154); `none` leaves them free. -/
def State.offer (s : State) : Option Answers → State
  | none => s
  | some a => { s with answers := a :: s.answers }

end Sys2Proof.Machine
end

