-- ==== Sys2Proof/Machine/Flags.lean ====
section
/-! DEFINITION. Every value an instruction writes to VF as a flag (spec 10_state.md R42). VF is the only flag. -/

namespace Sys2Proof.Machine

/-- The flag byte of a condition: 1 or 0. -/
def flagByte (condition : Bool) : Byte := if condition then 1#8 else 0#8

/-- ADD_REG: 1 iff a + b > 255 (R206). -/
def carryFlag (a b : Byte) : Byte := flagByte (decide (a.toNat + b.toNat > 255))

/-- SUB and SUBN: 1 iff minuend > subtrahend, a strict comparison (R207, R209, R213). -/
def notBorrowFlag (minuend subtrahend : Byte) : Byte := flagByte (decide (minuend.toNat > subtrahend.toNat))

/-- SHR: bit 0, the bit shifted out (R208). -/
def lowBitFlag (a : Byte) : Byte := flagByte (a.getLsbD 0)

/-- SHL: bit 7, the bit shifted out (R210). -/
def highBitFlag (a : Byte) : Byte := flagByte (a.getLsbD 7)

/-- DRW: 1 iff some pixel went from 1 to 0 (R273). -/
def collisionFlag (collided : Bool) : Byte := flagByte collided

end Sys2Proof.Machine
end

