-- ==== Sys2Proof/Machine/Operands.lean ====
section
/-! DEFINITION. The operand forms of spec 30_encoding.md R96 and the exact arithmetic on them (00_scope.md R12:
naturals, narrowed explicitly where a register is written). -/

namespace Sys2Proof.Machine

/-- The register index 15, VF (R32). -/
def regF : RegIdx := 0xF#4

/-- V[x] (R13). -/
def State.reg (s : State) (x : RegIdx) : Byte := s.v.get x.toFin

/-- V[x] <- value (R13). No register is hard-wired (R31), and VF is register 15 with no special case (R32). -/
def State.setReg (s : State) (x : RegIdx) (value : Byte) : State := { s with v := s.v.set x.toNat value x.isLt }

/-- VF <- value (R32). -/
def State.setVF (s : State) (value : Byte) : State := s.setReg regF value

/-- V[start], V[start + 1], ... <- the bytes, in that order (R247). -/
def State.setRegs (s : State) (start : Nat) : List Byte → State
  | [] => s
  | b :: bs => (s.setReg (BitVec.ofNat 4 start) b).setRegs (start + 1) bs

/-- V[0], ..., V[x] (R246). -/
def State.regsUpTo (s : State) (x : RegIdx) : List Byte :=
  (List.range (x.toNat + 1)).map fun j => s.reg (BitVec.ofNat 4 j)

/-- NNN zero-extended to 16 bits, where it goes into pc or I (R95). -/
def addrWord (nnn : Addr12) : Word := BitVec.ofNat 16 nnn.toNat

/-- (a + b) mod 256 (R201, R206). -/
def addBytes (a b : Byte) : Byte := BitVec.ofNat 8 ((a.toNat + b.toNat) % 256)

/-- (a + 256 - b) mod 256 (R207, R209). -/
def subBytes (a b : Byte) : Byte := BitVec.ofNat 8 ((a.toNat + 256 - b.toNat) % 256)

/-- a >> 1 (R208). -/
def shiftRight1 (a : Byte) : Byte := BitVec.ofNat 8 (a.toNat / 2)

/-- (a << 1) mod 256 (R210). -/
def shiftLeft1 (a : Byte) : Byte := BitVec.ofNat 8 ((a.toNat * 2) % 256)

/-- (i0 + a) mod 65536 (R241). -/
def addIndexWord (i0 : Word) (a : Byte) : Word := BitVec.ofNat 16 ((i0.toNat + a.toNat) % 65536)

/-- NNN + V0, a natural of at most 0x10FE, so nothing is cut off (R174, R36). -/
def jumpOffset (nnn : Addr12) (v0 : Byte) : Word := BitVec.ofNat 16 (nnn.toNat + v0.toNat)

/-- FONT_BASE + FONT_STRIDE * a, a natural of at most 1275 (R244). -/
def glyphAddr (a : Byte) : Word := BitVec.ofNat 16 (Config.fontBase + a.toNat * Config.fontStride)

/-- The three decimal digits of a, hundreds first (R245). -/
def bcdDigits (a : Byte) : List Byte :=
  [BitVec.ofNat 8 (a.toNat / 100), BitVec.ofNat 8 (a.toNat / 10 % 10), BitVec.ofNat 8 (a.toNat % 10)]

end Sys2Proof.Machine
end

