-- ==== Sys2Proof/Machine/Alu.lean ====
section
/-! DEFINITION. Arithmetic and logic (spec 42_alu.md): LD_IMM, ADD_IMM, LD_REG, OR, AND, XOR, ADD_REG, SUB, SHR, SUBN,
SHL, RND. Operands are read from the state before the instruction, then VF is written, then the result, and the later
write stands (40_cycle_driver.md R140, D5; log entry 12). -/

namespace Sys2Proof.Machine

/-- The flag, then the result into register d: the later write stands when d is VF (R140, R214). -/
def State.setFlagThenReg (s : State) (flag : Byte) (d : RegIdx) (value : Byte) : State :=
  (s.setVF flag).setReg d value

/-- LD_IMM Vx,KK (R200). -/
def execLdImm (x : RegIdx) (kk : Byte) (s : State) : Result := .next (s.setReg x kk).advance

/-- ADD_IMM Vx,KK (R201): no flag. -/
def execAddImm (x : RegIdx) (kk : Byte) (s : State) : Result :=
  .next (s.setReg x (addBytes (s.reg x) kk)).advance

/-- LD_REG Vx,Vy (R202). -/
def execLdReg (x y : RegIdx) (s : State) : Result := .next (s.setReg x (s.reg y)).advance

/-- OR Vx,Vy (R203). -/
def execOrReg (x y : RegIdx) (s : State) : Result := .next (s.setReg x (s.reg x ||| s.reg y)).advance

/-- AND Vx,Vy (R204). -/
def execAndReg (x y : RegIdx) (s : State) : Result := .next (s.setReg x (s.reg x &&& s.reg y)).advance

/-- XOR Vx,Vy (R205). -/
def execXorReg (x y : RegIdx) (s : State) : Result := .next (s.setReg x (s.reg x ^^^ s.reg y)).advance

/-- ADD_REG Vx,Vy (R206). -/
def execAddReg (x y : RegIdx) (s : State) : Result :=
  .next (s.setFlagThenReg (carryFlag (s.reg x) (s.reg y)) x (addBytes (s.reg x) (s.reg y))).advance

/-- SUB Vx,Vy (R207). -/
def execSub (x y : RegIdx) (s : State) : Result :=
  .next (s.setFlagThenReg (notBorrowFlag (s.reg x) (s.reg y)) x (subBytes (s.reg x) (s.reg y))).advance

/-- SHR Vx (R208); Y is ignored (R108). -/
def execShr (x _y : RegIdx) (s : State) : Result :=
  .next (s.setFlagThenReg (lowBitFlag (s.reg x)) x (shiftRight1 (s.reg x))).advance

/-- SUBN Vx,Vy (R209): the destination is V[Y] (90_conflicts.md C9). -/
def execSubn (x y : RegIdx) (s : State) : Result :=
  .next (s.setFlagThenReg (notBorrowFlag (s.reg y) (s.reg x)) y (subBytes (s.reg y) (s.reg x))).advance

/-- SHL Vx (R210); Y is ignored (R108). -/
def execShl (x _y : RegIdx) (s : State) : Result :=
  .next (s.setFlagThenReg (highBitFlag (s.reg x)) x (shiftLeft1 (s.reg x))).advance

/-- RND Vx,KK (R211): the byte is the random-byte source's answer in this step. -/
def execRnd (x : RegIdx) (kk : Byte) (s : State) : Result := .next (s.setReg x (s.randomByte &&& kk)).advance

end Sys2Proof.Machine
end

