-- ==== Sys2Proof/Machine/Control.lean ====
section
/-! DEFINITION. Control flow (spec 41_control_flow.md): SYS, RET, JP, CALL, JP_OFFSET, SE_IMM, SNE_IMM, SE_REG,
SNE_REG. -/

namespace Sys2Proof.Machine

/-- SYS of group 0x0: no operation (R170). -/
def execSys (_nnn : Addr12) (s : State) : Result := .next s.advance

/-- SYS for an unmatched word: no operation (R104, R170). -/
def execSysUnmatched (_op : Word) (s : State) : Result := .next s.advance

/-- RET (R171): pc <- Pop(). -/
def execRet (_ignored : BitVec 8) (s : State) : Result :=
  match s.pop? with
  | none => raise .stackUnderflow
  | some (a, t) => .next (t.retire a)

/-- JP NNN (R172). -/
def execJp (nnn : Addr12) (s : State) : Result := .next (s.retire (addrWord nnn))

/-- CALL NNN (R173): Push(npc); pc <- NNN. -/
def execCall (nnn : Addr12) (s : State) : Result :=
  match s.push? s.npc with
  | none => raise .stackOverflow
  | some t => .next (t.retire (addrWord nnn))

/-- JP_OFFSET NNN (R174): pc <- NNN + V0. -/
def execJpOffset (nnn : Addr12) (s : State) : Result := .next (s.retire (jumpOffset nnn (s.reg 0#4)))

/-- SE_IMM Vx,KK (R175). -/
def execSeImm (x : RegIdx) (kk : Byte) (s : State) : Result := .next (s.skipIf (s.reg x == kk))

/-- SNE_IMM Vx,KK (R176). -/
def execSneImm (x : RegIdx) (kk : Byte) (s : State) : Result := .next (s.skipIf (s.reg x != kk))

/-- SE_REG Vx,Vy (R177). -/
def execSeReg (x y : RegIdx) (s : State) : Result := .next (s.skipIf (s.reg x == s.reg y))

/-- SNE_REG Vx,Vy (R178). -/
def execSneReg (x y : RegIdx) (s : State) : Result := .next (s.skipIf (s.reg x != s.reg y))

end Sys2Proof.Machine
end

