-- ==== Sys2Proof/Machine/Display.lean ====
section
/-! DEFINITION. Display operations (spec 44_display.md): CLS, DRW. -/

namespace Sys2Proof.Machine

/-- CLS (R270). -/
def execCls (_ignored : BitVec 8) (s : State) : Result := .next (s.setFB Framebuffer.blank).advance

/-- What DRW makes of the framebuffer, and whether a pixel collided (R271): the sprite's n rows lie at I, its top left
corner at the whole bytes V[x], V[y] (R272). -/
def State.drawn (s : State) (x y : RegIdx) (n : Nibble) : Framebuffer × Bool :=
  drawRows (s.reg x).toNat (s.reg y).toNat (s.mem.readBlock s.i.toNat n.toNat) (s.fb, false)

/-- DRW Vx,Vy,N (R271); with N = 0 nothing is read and VF is 0 (R275). -/
def execDrw (x y : RegIdx) (n : Nibble) (s : State) : Result :=
  withBounds s.i.toNat n.toNat
    ((s.setFB (s.drawn x y n).1).setVF (collisionFlag (s.drawn x y n).2)).advance

end Sys2Proof.Machine
end

