-- ==== Sys2Proof/Machine/Index.lean ====
section
/-! DEFINITION. The index register and the memory block operations (spec 43_index_memory.md): LD_INDEX, ADD_INDEX,
LD_SPRITE_ADDR, LD_BCD, LD_REGS_TO_MEM, LD_MEM_TO_REGS. A block access is checked whole before anything is written
(R243). -/

namespace Sys2Proof.Machine

/-- LD_INDEX NNN (R240). -/
def execLdIndex (nnn : Addr12) (s : State) : Result := .next (s.setI (addrWord nnn)).advance

/-- ADD_INDEX Vx (R241): no flag. -/
def execAddIndex (x : RegIdx) (s : State) : Result := .next (s.setI (addIndexWord s.i (s.reg x))).advance

/-- LD_SPRITE_ADDR Vx (R244). -/
def execLdSpriteAddr (x : RegIdx) (s : State) : Result := .next (s.setI (glyphAddr (s.reg x))).advance

/-- LD_BCD Vx (R245). -/
def execLdBcd (x : RegIdx) (s : State) : Result :=
  withBounds s.i.toNat 3 (s.setMem (s.mem.writeBlock s.i.toNat (bcdDigits (s.reg x)))).advance

/-- LD_REGS_TO_MEM Vx (R246); I is unchanged. -/
def execLdRegsToMem (x : RegIdx) (s : State) : Result :=
  withBounds s.i.toNat (x.toNat + 1) (s.setMem (s.mem.writeBlock s.i.toNat (s.regsUpTo x))).advance

/-- LD_MEM_TO_REGS Vx (R247); I is unchanged. -/
def execLdMemToRegs (x : RegIdx) (s : State) : Result :=
  withBounds s.i.toNat (x.toNat + 1) (s.setRegs 0 (s.mem.readBlock s.i.toNat (x.toNat + 1))).advance

end Sys2Proof.Machine
end

