-- ==== Sys2Proof/Machine/Keypad.lean ====
section
/-! DEFINITION. Keypad and timer operations (spec 45_keypad_timers.md): SKP, SKNP, LD_KEYPRESS, LD_FROM_DELAY,
LD_TO_DELAY, LD_TO_SOUND. -/

namespace Sys2Proof.Machine

/-- SKP Vx (R290): the key index is the whole byte. -/
def execSkp (x : RegIdx) (s : State) : Result := .next (s.skipIf (s.keyPressed (s.reg x)))

/-- SKNP Vx (R291). -/
def execSknp (x : RegIdx) (s : State) : Result := .next (s.skipIf (!s.keyPressed (s.reg x)))

/-- What LD_KEYPRESS leaves for an answer of the poll: the wait, or the key in V[x] (R292). -/
def State.afterKeyEvent (s : State) (x : RegIdx) : Option Byte → State
  | none => s.await
  | some k => (s.setReg x k).advance

/-- LD_KEYPRESS Vx (R292). -/
def execLdKeypress (x : RegIdx) (s : State) : Result := .next (s.afterKeyEvent x s.keyEvent)

/-- LD_FROM_DELAY Vx (R293). -/
def execLdFromDelay (x : RegIdx) (s : State) : Result := .next (s.setReg x s.dt).advance

/-- LD_TO_DELAY Vx (R294). -/
def execLdToDelay (x : RegIdx) (s : State) : Result := .next (s.setDT (s.reg x)).advance

/-- LD_TO_SOUND Vx (R295). -/
def execLdToSound (x : RegIdx) (s : State) : Result := .next (s.setST (s.reg x)).advance

end Sys2Proof.Machine
end

