-- ==== Sys2Proof/Machine/Fetch.lean ====
section
/-! DEFINITION. Fetch and decode, and what a step adds around an instruction's meaning (spec 40_cycle_driver.md R132
to R135, R143). -/

namespace Sys2Proof.Machine

/-- `op <- MemRead(pc, 2)` (R132), the two bytes from pc. -/
def State.fetchBytes (s : State) : List Byte := s.mem.readBlock s.pc.toNat 2

/-- Fetch and decode: the fetch bound first (R133), then strict decode (R135, R318), whose fault carries the word. -/
def State.fetchInstr (s : State) : Except Fault Instr :=
  if outOfBounds s.pc.toNat 2 then .error (.memoryOutOfBounds s.pc.toNat 2)
  else
    match decodeBytes s.params.strictDecode s.fetchBytes with
    | .ok (i, _) => .ok i
    | .error (.unsupported op) => .error (.unsupportedOpcode op)
    | .error .truncated => .error (.memoryOutOfBounds s.pc.toNat 2)

/-- What a step adds to its instruction's meaning: a completed step has used up its collaborators' answers (log
entry 4). A fault keeps its payload and commits nothing (R316). -/
def commit : Result → Result
  | .next t => .next t.nextDraw
  | .fault f => .fault f
  | .refused r => .refused r

/-- The address withFetchWord stores at: pc where it is fetchable (R133), else the program origin. -/
def State.fetchSlot (s : State) : Word :=
  if outOfBounds s.pc.toNat 2 then Config.programOrigin else s.pc

/-- The state with a word stored where the next step fetches it, high byte first (R60). -/
def State.storeFetchWord (s : State) (op : Word) : State :=
  { s with
    pc := s.fetchSlot
    mem := s.mem.writeBlock s.fetchSlot.toNat [highByte op, lowByte op] }

end Sys2Proof.Machine
end

