-- ==== Sys2Proof/Machine/Step.lean ====
section
/-! DEFINITION. The step transaction (spec 40_cycle_driver.md R130, R143): fetch, decode, the instruction's meaning,
commit. -/

namespace Sys2Proof.Machine

/-- One `step` (R143). -/
def step (s : State) : Host.Outcome State Fault Refusal :=
  match s.fetchInstr with
  | .error f => raise f
  | .ok i => commit (exec i s)

/-- The state with the instruction of `nbits` bits `w` stored where step fetches its next instruction (log entry 6).
The pc stays where it is unless nothing can be fetched there. -/
def State.withFetchWord (s : State) (nbits w : Nat) : State :=
  s.storeFetchWord (BitVec.ofNat 16 (w % 2 ^ nbits))

end Sys2Proof.Machine
end

