-- ==== Sys2Proof/Machine/Transactions.lean ====
section
/-! DEFINITION. The host's other entry points and the sequences of them (spec 40_cycle_driver.md R150 to R156,
70_reset_and_hazards.md R340, R342; log entry 5). -/

namespace Sys2Proof.Machine

/-- One timer of a tick: down by 1 while nonzero (R38, R150). -/
def tickByte (d : Byte) : Byte := if 0 < d.toNat then BitVec.ofNat 8 (d.toNat - 1) else d

/-- `tick_timers` (R150, R151). -/
def State.tickTimers (s : State) : State := { s with dt := tickByte s.dt, st := tickByte s.st }

/-- `load_program(bytes, origin)` (R152, R153): nothing but the bytes changes. -/
def State.loadProgram (s : State) (bytes : List Byte) (origin : Nat) : Result :=
  withBounds origin bytes.length (s.setMem (s.mem.writeBlock origin bytes))

/-- The check in front of every creation: STACK_DEPTH = 0 is refused (93_implementation_defined.md §1; log entry 2). -/
def requireDepth (p : Params) (created : State) : Result :=
  if p.stackDepth = 0 then .refused .stackDepthZero else .next created

/-- `create` of a machine with the given parameters (R340). -/
def createChecked (p : Params) : Result := requireDepth p (State.create p)

/-- The state after a host reset, a new create (R340): every component of R30 at its reset value. DESIGN CHOICE (log
entry 4), safe: what belongs to the collaborators and not to the machine stays, the answers handed in and not yet used
and the number of the next free answers, so that the free answers after a reset repeat none before it (R17, R331 and
R332 put no law on them). -/
def State.recreated (s : State) : State :=
  { State.create s.params with answers := s.answers, draws := s.draws }

/-- The framebuffer read port (R156, R333). -/
def State.framebufferPort (s : State) : Framebuffer := s.fb

/-- The timer read port (R156, R334). -/
def State.timerPort (s : State) : Byte × Byte := (s.dt, s.st)

/-- A call of a host entry point (R154). -/
inductive Transaction where
  /-- `create`, a host reset; the parameters stay (R340), and so do the collaborators' answers (log entry 4). -/
  | create
  /-- `step`, with the collaborators' answers to it, or with them left free (R154). -/
  | step (inputs : Option Answers)
  /-- `tick_timers`. -/
  | tickTimers
  /-- `load_program(bytes, origin)`. -/
  | loadProgram (bytes : List Byte) (origin : Nat)
  deriving DecidableEq, Repr

/-- What a transaction returns to the host (R131, R154). -/
inductive Report where
  /-- `Ok` of create, tick_timers and load_program. -/
  | ok
  /-- `Ok` of a step, with its status. -/
  | stepped (status : Status)
  /-- `Err f`. -/
  | err (f : Fault)
  /-- The model refuses the configuration. -/
  | refused (r : Refusal)
  deriving DecidableEq, Repr

/-- The machine after a transaction, and the report: a fault or a refusal leaves the machine as it was before the
transaction (R316). -/
def settle (before : State) (success : State → Report) : Result → State × Report
  | .next t => (t, success t)
  | .fault f => (before, .err f)
  | .refused r => (before, .refused r)

/-- One transaction (R154). -/
def transact (s : State) : Transaction → State × Report
  | .create => settle s (fun _ => .ok) (requireDepth s.params s.recreated)
  | .step inputs => settle s (fun t => .stepped t.status) (Machine.step (s.offer inputs))
  | .tickTimers => (s.tickTimers, .ok)
  | .loadProgram bytes origin => settle s (fun _ => .ok) (s.loadProgram bytes origin)

/-- A sequence of transactions, with the reports in order (R155). -/
def runHost (s : State) : List Transaction → State × List Report
  | [] => (s, [])
  | t :: ts =>
    let done := transact s t
    let rest := runHost done.1 ts
    (rest.1, done.2 :: rest.2)

end Sys2Proof.Machine
end

