-- ==== Sys2Proof/WellFormed.lean ====
section
/-! DEFINITION. Which instruction terms stand for a word of their row. The widths of the fields are in their types;
what is left is that the two SYS rows are tried last (spec 30_encoding.md R113): a group-0x0 SYS has N3 neither 0x0
nor 0xE (R99), and the fallback SYS carries a word that matches no row (R104). -/

namespace Sys2Proof

/-- Why an instruction term is ill-formed. -/
inductive FormError where
  /-- A group-0x0 SYS whose N3 is that of CLS or RET (R99). -/
  | sysIsClsOrRet
  /-- An unmatched SYS whose word matches a row of R98 (R104). -/
  | wordMatchesARow
  deriving DecidableEq, Repr

/-- The checks, one per SYS row; every other term is well-formed by its type. -/
def checkInstr : Instr → Except FormError Unit
  | .sys nnn =>
    if nnn.extractLsb' 0 4 = 0x0#4 ∨ nnn.extractLsb' 0 4 = 0xE#4 then .error .sysIsClsOrRet else .ok ()
  | .sysUnmatched op => if matchesNoRow op then .ok () else .error .wordMatchesARow
  | _ => .ok ()

/-- The instruction stands for a word of its row. -/
abbrev WellFormed (i : Instr) : Prop := checkInstr i = .ok ()

/-- Whether the decoder may answer the instruction under STRICT_DECODE = `strict`: all but the fallback SYS under
strict decode (R105). -/
def Instr.allowed (strict : Bool) : Instr → Bool
  | .sysUnmatched _ => !strict
  | _ => true

end Sys2Proof
end

