-- ==== Sys2Proof/Safety.lean ====
section
/-! DEFINITION. What a legal state and a safe run are, in the terms the claims use. -/

namespace Sys2Proof.Machine

/-- The pc addresses an opcode that can be fetched (spec 40_cycle_driver.md R133). -/
abbrev State.fetchable (s : State) : Prop := s.pc.toNat ≤ 4094

/-- What holds in every state the host can reach: the memory is in its form, the stack depth is within a legal bound
(10_state.md R39), its entries are at most 4096 (41_control_flow.md R171), and the pc is at most 0x10FE (10_state.md
R36). -/
structure State.Inv (s : State) : Prop where
  mem_wf : s.mem.wf
  depth_legal : s.params.ok
  depth_bounded : s.stack.length ≤ s.params.stackDepth
  entries_bounded : ∀ a ∈ s.stack, a.toNat ≤ 4096
  pc_bounded : s.pc.toNat ≤ 0x10FE

/-- The next step raises no fault. -/
def SafeStep (s : State) : Prop := ∀ f, step s ≠ .fault f

/-- Every run of at most k steps from s raises no fault. -/
def SafeRun : Nat → State → Prop
  | 0, _ => True
  | k + 1, s => SafeStep s ∧ ∀ t, step s = .next t → SafeRun k t

/-- The word at the pc, as the fetch reads it (R132). -/
def State.wordAtPc (s : State) : Word := wordOfBytes (s.mem.read s.pc.toNat) (s.mem.read (s.pc.toNat + 1))

/-- Whether the sprite whose rows are the bytes at `base`, drawn n rows high from column x and row y, has a set bit on
the pixel (px, py), said per pixel: the pixel lies c < 8 columns to the right of x modulo 64 and r < n rows below y
modulo 32, and bit 7 - c of row r is set (44_display.md R271, R272, R274). -/
def spriteCovers (m : Memory) (base n x y : Nat) (px : Fin 64) (py : Fin 32) : Bool :=
  let c := (px.val + 64 - x % 64) % 64
  let r := (py.val + 32 - y % 32) % 32
  decide (c < 8) && decide (r < n) && (m.read (base + r)).getLsbD (7 - c)

/-- The general registers an instruction may write (10_state.md R34). -/
def writesReg : Instr → RegIdx → Bool
  | .ldImm x _, z | .addImm x _, z | .ldReg x _, z | .orReg x _, z | .andReg x _, z | .xorReg x _, z
  | .rnd x _, z | .ldFromDelay x, z | .ldKeypress x, z => z == x
  | .addReg x _, z | .sub x _, z | .shr x _, z | .shl x _, z => z == x || z == 0xF#4
  | .subn _ y, z => z == y || z == 0xF#4
  | .drw _ _ _, z => z == 0xF#4
  | .ldMemToRegs x, z => decide (z.toNat ≤ x.toNat)
  | .cls _, _ | .ret _, _ | .jp _, _ | .call _, _ | .seImm _ _, _ | .sneImm _ _, _ | .seReg _ _, _
  | .sneReg _ _, _ | .ldIndex _, _ | .jpOffset _, _ | .skp _, _ | .sknp _, _ | .ldToDelay _, _
  | .ldToSound _, _ | .addIndex _, _ | .ldSpriteAddr _, _ | .ldBcd _, _ | .ldRegsToMem _, _ | .sys _, _
  | .sysUnmatched _, _ => false

/-- The kinds that may skip (40_cycle_driver.md R137). -/
def skipKinds : List Kind := [.SE_IMM, .SNE_IMM, .SE_REG, .SNE_REG, .SKP, .SKNP]

/-- The kinds that transfer control (40_cycle_driver.md R138). -/
def transferKinds : List Kind := [.JP, .CALL, .JP_OFFSET, .RET]

end Sys2Proof.Machine
end

