-- ==== Sys2Proof/Certificates/Slice0/Obligations.lean ====
section
/-! DEFINITION. The statements for the provers, from the numbered rules of the spec. In all of them `s.pc + 2#16` is
the 16-bit sum; at every pc from which an instruction can be fetched it is the natural pc + 2 of the rules
(PcAdvancesByNaturals; log entry 9). A record update `{ s with ... }` names every component that changes, so that all
the others, the ones of the model's own included, are said to stay. -/

open Sys2Proof Sys2Proof.Machine

/-! ## Encoding -/

/-- Words written out from the encodings of opcode_table.json and 95_test_vectors.md 2.1 decode to their instructions
(30_encoding.md §3). That CLS, RET and SYS also carry their ignored bits is the model's choice (log entry 7). -/
def Obligations.DecodesWordsOfTheEncodingTable : Prop :=
  decode false 0x00E0#16 = .ok (.cls 0x0E#8) ∧
  decode false 0x00EE#16 = .ok (.ret 0x0E#8) ∧
  decode false 0x1ABC#16 = .ok (.jp 0xABC#12) ∧
  decode false 0x3342#16 = .ok (.seImm 0x3#4 0x42#8) ∧
  decode false 0x5120#16 = .ok (.seReg 0x1#4 0x2#4) ∧
  decode false 0x8127#16 = .ok (.subn 0x1#4 0x2#4) ∧
  decode false 0xA123#16 = .ok (.ldIndex 0x123#12) ∧
  decode false 0xD12F#16 = .ok (.drw 0x1#4 0x2#4 0xF#4) ∧
  decode false 0xE59E#16 = .ok (.skp 0x5#4) ∧
  decode false 0xF155#16 = .ok (.ldRegsToMem 0x1#4) ∧
  decode false 0x0123#16 = .ok (.sys 0x123#12) ∧
  decode false 0x5121#16 = .ok (.sysUnmatched 0x5121#16) ∧
  decode true 0x5121#16 = .error (.unsupported 0x5121#16)

/-- Decoding the word of a well-formed instruction, or its bytes followed by any others, gives the instruction back
(under strict decode: every one but the fallback SYS). That CLS, RET, SHR, SHL and SYS carry the bits their rows ignore,
and so give them back too, is the model's choice (log entry 7). -/
def Obligations.DecodeOfEncodeIsTheInstruction : Prop :=
  ∀ (strict : Bool) (i : Instr) (rest : List Byte), WellFormed i → i.allowed strict = true →
    decode strict (encode i) = .ok i ∧ decodeBytes strict (encodeBytes i ++ rest) = .ok (i, rest)

/-- Encoding what a word decodes to gives the word back, and decoding answers only well-formed instructions. For the
words of CLS, RET, SHR, SHL and SYS the first holds because the model's instruction carries the bits that its row
ignores, which is the model's choice (log entry 7): to the spec 0x00E0 and 0x0120 are both just CLS (R99, R108). -/
def Obligations.EncodeOfDecodeIsTheWord : Prop :=
  ∀ (strict : Bool) (op : Word) (i : Instr), decode strict op = .ok i →
    encode i = op ∧ WellFormed i ∧ i.allowed strict = true

/-- The nibble decoder of R107 gives every word the kind that the mask and match rows of opcode_table.json give it,
tried in the order of R113. -/
def Obligations.DecoderAgreesWithTheOpcodeTable : Prop :=
  ∀ (strict : Bool) (op : Word), (decode strict op).toOption.map Instr.kind = tableKind strict op

/-- R104: under the default policy no word fails to decode, and a word that matches no row decodes to SYS and executes
as a no-op. -/
def Obligations.UnmatchedWordsExecuteAsSys : Prop :=
  (∀ op : Word, ∃ i, decode false op = .ok i) ∧
  ∀ (op : Word) (s : State), matchesNoRow op = true →
    decode false op = .ok (.sysUnmatched op) ∧ (Instr.sysUnmatched op).kind = .SYS ∧
    exec (.sysUnmatched op) s = .next { s with pc := s.pc + 2#16, status := .executed }

/-- Strict decode rejects exactly the words that match no row, and decodes every other word as the default does (R105,
the spec's decision D16; log entry 14). -/
def Obligations.StrictDecodeRejectsExactlyUnmatchedWords : Prop :=
  ∀ op : Word,
    (matchesNoRow op = true → decode true op = .error (.unsupported op)) ∧
    (matchesNoRow op = false → decode true op = decode false op ∧ ∃ i, decode true op = .ok i)

/-- Group 0x0 is decoded on its low nibble alone, whatever the middle nibbles are (R99, the spec's decision D15; log
entry 14). That the instructions carry the ignored middle nibbles is the model's choice (log entry 7). -/
def Obligations.GroupZeroDecodesOnItsLowNibble : Prop :=
  ∀ (strict : Bool) (op : Word), opN0 op = 0x0#4 →
    (opN3 op = 0x0#4 → decode strict op = .ok (.cls (opN12 op))) ∧
    (opN3 op = 0xE#4 → decode strict op = .ok (.ret (opN12 op))) ∧
    (opN3 op ≠ 0x0#4 → opN3 op ≠ 0xE#4 → decode strict op = .ok (.sys (opNNN op)))

/-- Ignored bits give the same behaviour whatever their value (R108, a derived rule of the spec). -/
def Obligations.IgnoredBitsDoNotMatter : Prop :=
  ∀ (s : State) (g h : BitVec 8) (m n : Addr12) (v w : Word) (x y z : RegIdx),
    exec (.cls g) s = exec (.cls h) s ∧ exec (.ret g) s = exec (.ret h) s ∧
    exec (.sys m) s = exec (.sys n) s ∧ exec (.sysUnmatched v) s = exec (.sysUnmatched w) s ∧
    exec (.shr x y) s = exec (.shr x z) s ∧ exec (.shl x y) s = exec (.shl x z) s

/-! ## The step -/

/-- At a fetchable pc a step is the meaning of the instruction that the word at the pc decodes to; a completed step
also uses up the answers the host handed in for it, which is the model's own (log entry 4). -/
def Obligations.StepRunsTheDecodedInstruction : Prop :=
  ∀ (s : State) (i : Instr), s.fetchable → decode s.params.strictDecode s.wordAtPc = .ok i →
    (∀ t, exec i s = .next t → step s = .next { t with answers := t.answers.tail, draws := t.draws + 1 }) ∧
    (∀ f, exec i s = .fault f → step s = .fault f) ∧
    (∀ r, exec i s ≠ .refused r)

/-- A pc of 4095 or more faults at the fetch with the address and the length 2, whatever memory holds (R133, derived
in the spec from R62). -/
def Obligations.FetchPastTheEndFaults : Prop :=
  ∀ s : State, 4095 ≤ s.pc.toNat → step s = .fault (.memoryOutOfBounds s.pc.toNat 2)

/-- Under strict decode a step on a word that matches no row faults with the word (R135, R314, the spec's decision
D16; log entry 14). -/
def Obligations.StrictStepFaultsOnUnmatchedWords : Prop :=
  ∀ s : State, s.fetchable → s.params.strictDecode = true → matchesNoRow s.wordAtPc = true →
    step s = .fault (.unsupportedOpcode s.wordAtPc)

/-- A step faults exactly where the fault tables of the spec say so, with the information they give, and in their
order (R310 to R314, R317, R318; fault payloads are the spec's decision D33). The premise is the depth bound of the
invariant (StepKeepsTheInvariant). -/
def Obligations.StepFaultsExactlyByTheTaxonomy : Prop :=
  ∀ (s : State) (f : Fault), s.stack.length ≤ s.params.stackDepth →
    (step s = .fault f ↔
      (4095 ≤ s.pc.toNat ∧ f = .memoryOutOfBounds s.pc.toNat 2) ∨
      (s.pc.toNat ≤ 4094 ∧ s.params.strictDecode = true ∧ matchesNoRow s.wordAtPc = true ∧
        f = .unsupportedOpcode s.wordAtPc) ∨
      (s.pc.toNat ≤ 4094 ∧ ∃ i, decode s.params.strictDecode s.wordAtPc = .ok i ∧
        ((∃ g, i = .ret g ∧ s.stack = [] ∧ f = .stackUnderflow) ∨
         (∃ nnn, i = .call nnn ∧ s.stack.length = s.params.stackDepth ∧ f = .stackOverflow) ∨
         (∃ x y n, i = .drw x y n ∧ 0 < n.toNat ∧ 4095 < s.i.toNat + n.toNat - 1 ∧
            f = .memoryOutOfBounds s.i.toNat n.toNat) ∨
         (∃ x, i = .ldBcd x ∧ 4095 < s.i.toNat + 2 ∧ f = .memoryOutOfBounds s.i.toNat 3) ∨
         (∃ x, (i = .ldRegsToMem x ∨ i = .ldMemToRegs x) ∧ 4095 < s.i.toNat + x.toNat ∧
            f = .memoryOutOfBounds s.i.toNat (x.toNat + 1)))))

/-- No step is refused: every instruction has its meaning. -/
def Obligations.StepNeverRefuses : Prop := ∀ (s : State) (r : Refusal), step s ≠ .refused r

/-- Every step keeps the invariant: canonical memory inside the address space, stack depth within its bound (R39),
return addresses at most 4096 (R171), pc at most 0x10FE (R36). -/
def Obligations.StepKeepsTheInvariant : Prop := ∀ s t : State, s.Inv → step s = .next t → t.Inv

/-- The invariant holds at reset, and after create with any legal parameters. -/
def Obligations.CreateMeetsTheInvariant : Prop :=
  State.reset.Inv ∧ ∀ p : Params, p.ok → (State.create p).Inv

/-- Whatever sequence of creates, steps, ticks and loads the host issues (R155), the machine keeps the invariant. -/
def Obligations.HostSequencesKeepTheInvariant : Prop :=
  ∀ (s : State) (ts : List Transaction), s.Inv → (runHost s ts).1.Inv

/-- The state after create (R45, R340; memory and framebuffer by the spec's decisions D12 and D13, log entry 15); the
create transaction of the host resets the machine to it, whatever state it was in (the spec's decision D22), and keeps
the collaborators' answers, which is the model's choice (log entry 4). -/
def Obligations.CreateZeroesTheMachine : Prop :=
  ∀ p : Params,
    (∀ x, (State.create p).reg x = 0#8) ∧ (State.create p).i = 0#16 ∧ (State.create p).pc = 0x200#16 ∧
    (State.create p).stack = [] ∧ (State.create p).dt = 0#8 ∧ (State.create p).st = 0#8 ∧
    (∀ a, (State.create p).mem.read a = 0#8) ∧ (∀ px py, (State.create p).fb.pixel px py = false) ∧
    (State.create p).params = p ∧ State.reset = State.create { stackDepth := 16, strictDecode := false } ∧
    createChecked { p with stackDepth := 0 } = .refused .stackDepthZero ∧
    (p.ok → createChecked p = .next (State.create p)) ∧
    (∀ s : State, s.params.ok →
      transact s .create = ({ State.create s.params with answers := s.answers, draws := s.draws }, .ok)) ∧
    (∀ s : State, s.params.stackDepth = 0 → transact s .create = (s, .refused .stackDepthZero))

/-- Zeroed memory (R344, derived in the spec): in every state in which no byte of memory is set, each step from a
fetchable pc clears the whole screen, whatever it shows, and advances by 2; the steps from 0x200, where the pc is at
reset, leave pc = 0x1000 after 1792 of them, and the next one faults. -/
def Obligations.ZeroedMemoryRunsToItsEnd : Prop :=
  (State.reset.mem = [] ∧ State.reset.pc = 0x200#16) ∧
  ∀ s : State, s.mem = [] →
    (s.fetchable → ∃ f : Framebuffer, (∀ px py, f.pixel px py = false) ∧
      step s = .next { s with
        fb := f, pc := s.pc + 2#16, status := .executed, answers := s.answers.tail, draws := s.draws + 1 }) ∧
    (s.pc = 0x200#16 →
      (∀ k, k ≤ 1792 → ∃ t : State, Host.Core.run Sys2Proof.core k s = .next t ∧
        t.pc.toNat = 0x200 + 2 * k ∧ (0 < k → ∀ px py, t.fb.pixel px py = false) ∧
        t.v = s.v ∧ t.i = s.i ∧ t.stack = s.stack ∧ t.dt = s.dt ∧ t.st = s.st ∧ t.mem = []) ∧
      Host.Core.run Sys2Proof.core 1793 s = .fault (Fault.memoryOutOfBounds 0x1000 2))

/-- There is no waiting bit (R44, the spec's decision D8): the status that the last step returned is read by no step. -/
def Obligations.StatusIsNeverRead : Prop :=
  ∀ (s : State) (status : Status), step { s with status := status } = step s

/-- A fault repeats whatever the collaborators answer, because no faulting path depends on an answer (R146, the spec's
decision D19; log entry 16). -/
def Obligations.FaultsDoNotDependOnCollaborators : Prop :=
  ∀ (s : State) (f : Fault) (answers : List Answers) (draws : Nat), step s = .fault f →
    step { s with answers := answers, draws := draws } = .fault f

/-- A transaction that reports a fault or a refusal leaves the whole machine as it was (R316, the spec's decision D6;
log entry 16). -/
def Obligations.FailedTransactionsChangeNothing : Prop :=
  ∀ (s : State) (t : Transaction),
    (∀ f, (transact s t).2 = .err f → (transact s t).1 = s) ∧
    (∀ r, (transact s t).2 = .refused r → (transact s t).1 = s)

/-- A step reads and writes the timers only as LD_FROM_DELAY, LD_TO_DELAY and LD_TO_SOUND do, and never decrements
them (R145): the first four clauses say what every step leaves in them, the last that no other step but
LD_FROM_DELAY's depends on their values. -/
def Obligations.StepsDoNotTickTheTimers : Prop :=
  ∀ s t : State, step s = .next t →
    (∀ x, decode s.params.strictDecode s.wordAtPc = .ok (.ldToDelay x) → t.dt = s.reg x) ∧
    ((∀ x, decode s.params.strictDecode s.wordAtPc ≠ .ok (.ldToDelay x)) → t.dt = s.dt) ∧
    (∀ x, decode s.params.strictDecode s.wordAtPc = .ok (.ldToSound x) → t.st = s.reg x) ∧
    ((∀ x, decode s.params.strictDecode s.wordAtPc ≠ .ok (.ldToSound x)) → t.st = s.st) ∧
    ((∀ x, decode s.params.strictDecode s.wordAtPc ≠ .ok (.ldFromDelay x)) → ∀ d e : Byte,
      ∃ u, step { s with dt := d, st := e } = .next u ∧ { u with dt := t.dt, st := t.st } = t)

/-- Every instruction that neither skips nor transfers control, and that is not a key wait, ends with the pc at the
next address in sequence (R136). -/
def Obligations.PcAdvancesUnlessRedirected : Prop :=
  ∀ (i : Instr) (s t : State), exec i s = .next t → i.kind ∉ skipKinds → i.kind ∉ transferKinds →
    t.status = .executed → t.pc = s.pc + 2#16 ∧ (s.fetchable → t.pc.toNat = s.pc.toNat + 2)

/-- From a fetchable pc no write to the pc is cut off: the addresses pc + 2 and pc + 4 are the natural ones, and every
pc an instruction leaves is at most 0x10FE, given return addresses of at most 4096 (R35, R36; R36 is derived in the
spec, and the width is its decision D2; log entries 9 and 17). -/
def Obligations.PcAdvancesByNaturals : Prop :=
  ∀ s : State, s.fetchable →
    (s.pc + 2#16).toNat = s.pc.toNat + 2 ∧ (s.pc + 4#16).toNat = s.pc.toNat + 4 ∧
    ∀ (i : Instr) (t : State), (∀ a ∈ s.stack, a.toNat ≤ 4096) → exec i s = .next t → t.pc.toNat ≤ 0x10FE

/-! ## What each instruction leaves unchanged -/

/-- Each component has its writers, and no instruction touches the components of the others: I (R37), DT and ST (R38),
S (R39), M (R65), FB (R41), and the model's own fields (R141, the spec's decision D32). -/
def Obligations.ComponentsHaveTheirWriters : Prop :=
  ∀ (i : Instr) (s t : State), exec i s = .next t →
    (t.i = s.i ∨ i.kind ∈ [Kind.LD_INDEX, .ADD_INDEX, .LD_SPRITE_ADDR]) ∧
    (t.dt = s.dt ∨ i.kind = .LD_TO_DELAY) ∧ (t.st = s.st ∨ i.kind = .LD_TO_SOUND) ∧
    (t.stack = s.stack ∨ i.kind ∈ [Kind.CALL, .RET]) ∧
    (t.mem = s.mem ∨ i.kind ∈ [Kind.LD_BCD, .LD_REGS_TO_MEM]) ∧
    (t.fb = s.fb ∨ i.kind ∈ [Kind.CLS, .DRW]) ∧
    t.params = s.params ∧ t.answers = s.answers ∧ t.draws = s.draws ∧
    (t.status = .executed ∨ i.kind = .LD_KEYPRESS)

/-- A general register changes only under an instruction that writes it (R34, derived in the spec; R141): the
destination, VF where the instruction has a flag, V0..V[X] for the block load. -/
def Obligations.RegistersHaveTheirWriters : Prop :=
  ∀ (i : Instr) (s t : State) (z : RegIdx), exec i s = .next t → writesReg i z = false → t.reg z = s.reg z

/-! ## Control flow -/

/-- SYS of either row completes, advances the pc and changes nothing else (R170; which words are SYS is the spec's
decision D15, log entry 14). -/
def Obligations.SysOnlyAdvances : Prop :=
  ∀ (nnn : Addr12) (op : Word) (s : State),
    exec (.sys nnn) s = .next { s with pc := s.pc + 2#16, status := .executed } ∧
    exec (.sysUnmatched op) s = .next { s with pc := s.pc + 2#16, status := .executed }

/-- RET (R171): a stack with a top entry loses it to the pc; the empty stack faults; where the invariant holds, which
every step keeps (StepKeepsTheInvariant), the address is at most 4096. -/
def Obligations.RetPopsThePc : Prop :=
  ∀ (strict : Bool) (g : BitVec 8) (s : State),
    decode strict (0x0#4 ++ g ++ 0xE#4) = .ok (.ret g) ∧
    (∀ rest a, s.stack = rest ++ [a] →
      exec (.ret g) s = .next { s with stack := rest, pc := a, status := .executed }) ∧
    (s.stack = [] → exec (.ret g) s = .fault .stackUnderflow) ∧
    (s.Inv → ∀ t, exec (.ret g) s = .next t → t.pc.toNat ≤ 4096)

/-- JP NNN (R172): the pc is NNN, and nothing else changes. -/
def Obligations.JpGoesToItsTarget : Prop :=
  ∀ (strict : Bool) (nnn : Addr12) (s : State),
    decode strict (0x1#4 ++ nnn) = .ok (.jp nnn) ∧
    exec (.jp nnn) s = .next { s with pc := 0x0#4 ++ nnn, status := .executed }

/-- CALL NNN (R173): below the depth bound npc goes on top of the stack and the pc is NNN; at the bound it faults. -/
def Obligations.CallPushesTheNextAddress : Prop :=
  ∀ (strict : Bool) (nnn : Addr12) (s : State),
    decode strict (0x2#4 ++ nnn) = .ok (.call nnn) ∧
    (s.stack.length < s.params.stackDepth →
      exec (.call nnn) s =
        .next { s with stack := s.stack ++ [s.pc + 2#16], pc := 0x0#4 ++ nnn, status := .executed }) ∧
    (s.stack.length = s.params.stackDepth → exec (.call nnn) s = .fault .stackOverflow)

/-- A RET that finds the stack as a CALL left it goes to the instruction after that CALL, with the stack as it was
before it (41_control_flow.md; 95_test_vectors.md S7; 40_cycle_driver.md R147). -/
def Obligations.CallThenRetReturns : Prop :=
  ∀ (nnn : Addr12) (g : BitVec 8) (s t u : State), exec (.call nnn) s = .next t → u.stack = t.stack →
    exec (.ret g) u = .next { u with stack := s.stack, pc := s.pc + 2#16, status := .executed }

/-- JP_OFFSET NNN: the pc is the natural NNN + V0, not cut off (R174, the spec's decision D27; log entry 17). -/
def Obligations.JpOffsetAddsVZero : Prop :=
  ∀ (strict : Bool) (nnn : Addr12) (s : State),
    decode strict (0xB#4 ++ nnn) = .ok (.jpOffset nnn) ∧
    ∃ target : Word, target.toNat = nnn.toNat + (s.reg 0#4).toNat ∧ target.toNat ≤ 0x10FE ∧
      exec (.jpOffset nnn) s = .next { s with pc := target, status := .executed }

/-- SE_IMM and SNE_IMM (R175, R176): pc + 4 or pc + 2, and nothing else changes. -/
def Obligations.ImmediateSkips : Prop :=
  ∀ (strict : Bool) (x : RegIdx) (kk : Byte) (s : State),
    decode strict (0x3#4 ++ x ++ kk) = .ok (.seImm x kk) ∧
    decode strict (0x4#4 ++ x ++ kk) = .ok (.sneImm x kk) ∧
    exec (.seImm x kk) s =
      .next { s with pc := if s.reg x = kk then s.pc + 4#16 else s.pc + 2#16, status := .executed } ∧
    exec (.sneImm x kk) s =
      .next { s with pc := if s.reg x ≠ kk then s.pc + 4#16 else s.pc + 2#16, status := .executed }

/-- SE_REG and SNE_REG (R177, R178): pc + 4 or pc + 2, and nothing else changes; the same group with a nonzero low
nibble is no skip. -/
def Obligations.RegisterSkips : Prop :=
  ∀ (strict : Bool) (x y n : RegIdx) (s : State),
    decode strict (0x5#4 ++ x ++ y ++ 0x0#4) = .ok (.seReg x y) ∧
    decode strict (0x9#4 ++ x ++ y ++ 0x0#4) = .ok (.sneReg x y) ∧
    (n ≠ 0x0#4 →
      decode false (0x5#4 ++ x ++ y ++ n) = .ok (.sysUnmatched (0x5#4 ++ x ++ y ++ n)) ∧
      decode true (0x5#4 ++ x ++ y ++ n) = .error (.unsupported (0x5#4 ++ x ++ y ++ n)) ∧
      decode false (0x9#4 ++ x ++ y ++ n) = .ok (.sysUnmatched (0x9#4 ++ x ++ y ++ n)) ∧
      decode true (0x9#4 ++ x ++ y ++ n) = .error (.unsupported (0x9#4 ++ x ++ y ++ n))) ∧
    exec (.seReg x y) s =
      .next { s with pc := if s.reg x = s.reg y then s.pc + 4#16 else s.pc + 2#16, status := .executed } ∧
    exec (.sneReg x y) s =
      .next { s with pc := if s.reg x ≠ s.reg y then s.pc + 4#16 else s.pc + 2#16, status := .executed }

/-- SKP and SKNP ask the keypad for the whole byte V[X] and skip on its answer (R290, R291, the spec's decision D9);
the answer is the host's where it handed one in with the step, else free (log entry 4). -/
def Obligations.KeySkips : Prop :=
  ∀ (x : RegIdx) (s : State),
    exec (.skp x) s =
      .next { s with pc := if s.keyPressed (s.reg x) then s.pc + 4#16 else s.pc + 2#16, status := .executed } ∧
    exec (.sknp x) s =
      .next { s with pc := if s.keyPressed (s.reg x) then s.pc + 2#16 else s.pc + 4#16, status := .executed } ∧
    (∀ a rest k, s.answers = a :: rest → (s.keyPressed k = true ↔ k ∈ a.pressed)) ∧
    (∀ k, s.answers = [] → s.keyPressed k = Config.keyPressed s.draws k)

/-! ## Arithmetic and logic -/

/-- LD_IMM and LD_REG (R200, R202): the destination gets the value, and nothing else but the pc changes. -/
def Obligations.LoadsIntoARegister : Prop :=
  ∀ (strict : Bool) (x y : RegIdx) (kk : Byte) (s : State),
    decode strict (0x6#4 ++ x ++ kk) = .ok (.ldImm x kk) ∧
    decode strict (0x8#4 ++ x ++ y ++ 0x0#4) = .ok (.ldReg x y) ∧
    exec (.ldImm x kk) s =
      .next { s with v := s.v.set x.toNat kk x.isLt, pc := s.pc + 2#16, status := .executed } ∧
    exec (.ldReg x y) s =
      .next { s with v := s.v.set x.toNat (s.reg y) x.isLt, pc := s.pc + 2#16, status := .executed }

/-- ADD_IMM (R201): the sum modulo 256 and no flag: nothing but V[X] and the pc changes. -/
def Obligations.AddImmWrapsWithoutFlag : Prop :=
  ∀ (strict : Bool) (x : RegIdx) (kk : Byte) (s : State),
    decode strict (0x7#4 ++ x ++ kk) = .ok (.addImm x kk) ∧
    ∃ r : Byte, r.toNat = ((s.reg x).toNat + kk.toNat) % 256 ∧
      exec (.addImm x kk) s =
        .next { s with v := s.v.set x.toNat r x.isLt, pc := s.pc + 2#16, status := .executed }

/-- OR, AND and XOR (R203, R204, R205): the bitwise result in V[X], and VF is not reset. -/
def Obligations.BitwiseOperations : Prop :=
  ∀ (strict : Bool) (x y : RegIdx) (s : State),
    decode strict (0x8#4 ++ x ++ y ++ 0x1#4) = .ok (.orReg x y) ∧
    decode strict (0x8#4 ++ x ++ y ++ 0x2#4) = .ok (.andReg x y) ∧
    decode strict (0x8#4 ++ x ++ y ++ 0x3#4) = .ok (.xorReg x y) ∧
    exec (.orReg x y) s =
      .next { s with v := s.v.set x.toNat (s.reg x ||| s.reg y) x.isLt, pc := s.pc + 2#16, status := .executed } ∧
    exec (.andReg x y) s =
      .next { s with v := s.v.set x.toNat (s.reg x &&& s.reg y) x.isLt, pc := s.pc + 2#16, status := .executed } ∧
    exec (.xorReg x y) s =
      .next { s with v := s.v.set x.toNat (s.reg x ^^^ s.reg y) x.isLt, pc := s.pc + 2#16, status := .executed }

/-- ADD_REG: VF gets the carry, then V[X] the sum modulo 256 (R206; that operands are latched and the later write
stands is the spec's decision D5, log entry 12). -/
def Obligations.AddRegWritesCarryThenSum : Prop :=
  ∀ (x y : RegIdx) (s : State),
    ∃ sum flag : Byte,
      sum.toNat = ((s.reg x).toNat + (s.reg y).toNat) % 256 ∧
      flag.toNat = (if (s.reg x).toNat + (s.reg y).toNat > 255 then 1 else 0) ∧
      exec (.addReg x y) s =
        .next { s with v := (s.v.set 15 flag).set x.toNat sum x.isLt, pc := s.pc + 2#16, status := .executed }

/-- SUB and SUBN: VF gets the strict comparison, then V[X], for SUBN V[Y], the difference modulo 256 (R207, R209;
latching and write order are the spec's decision D5, log entry 12). -/
def Obligations.SubtractionsWriteFlagThenDifference : Prop :=
  ∀ (x y : RegIdx) (s : State),
    (∃ diff flag : Byte,
      diff.toNat = ((s.reg x).toNat + 256 - (s.reg y).toNat) % 256 ∧
      flag.toNat = (if (s.reg x).toNat > (s.reg y).toNat then 1 else 0) ∧
      exec (.sub x y) s =
        .next { s with v := (s.v.set 15 flag).set x.toNat diff x.isLt, pc := s.pc + 2#16, status := .executed }) ∧
    (∃ diff flag : Byte,
      diff.toNat = ((s.reg y).toNat + 256 - (s.reg x).toNat) % 256 ∧
      flag.toNat = (if (s.reg y).toNat > (s.reg x).toNat then 1 else 0) ∧
      exec (.subn x y) s =
        .next { s with v := (s.v.set 15 flag).set y.toNat diff y.isLt, pc := s.pc + 2#16, status := .executed })

/-- SHR and SHL: VF gets the bit shifted out, then V[X] the shifted value, whatever the ignored Y is (R208, R210;
latching and write order are the spec's decision D5, log entry 12). -/
def Obligations.ShiftsWriteTheBitThenTheResult : Prop :=
  ∀ (x y : RegIdx) (s : State),
    (∃ r flag : Byte,
      r.toNat = (s.reg x).toNat / 2 ∧ flag.toNat = (s.reg x).toNat % 2 ∧
      exec (.shr x y) s =
        .next { s with v := (s.v.set 15 flag).set x.toNat r x.isLt, pc := s.pc + 2#16, status := .executed }) ∧
    (∃ r flag : Byte,
      r.toNat = (2 * (s.reg x).toNat) % 256 ∧ flag.toNat = (s.reg x).toNat / 128 ∧
      exec (.shl x y) s =
        .next { s with v := (s.v.set 15 flag).set x.toNat r x.isLt, pc := s.pc + 2#16, status := .executed })

/-- The value VF ends with where an operand or the destination is VF, with a = V[X], b = V[Y] and f = VF before the
instruction: the table of R214, row by row (derived in the spec from its decision D5; log entry 12). -/
def Obligations.AliasedFlagRegister : Prop :=
  ∀ (s : State) (z : RegIdx), z ≠ 0xF#4 → ∀ a f : Nat, a = (s.reg z).toNat → f = (s.reg 0xF#4).toNat →
    (∃ t, exec (.addReg 0xF#4 z) s = .next t ∧ (t.reg 0xF#4).toNat = (f + a) % 256) ∧
    (∃ t, exec (.addReg z 0xF#4) s = .next t ∧ (t.reg 0xF#4).toNat = (if a + f > 255 then 1 else 0)) ∧
    (∃ t, exec (.addReg 0xF#4 0xF#4) s = .next t ∧ (t.reg 0xF#4).toNat = (2 * f) % 256) ∧
    (∃ t, exec (.sub 0xF#4 z) s = .next t ∧ (t.reg 0xF#4).toNat = (f + 256 - a) % 256) ∧
    (∃ t, exec (.sub z 0xF#4) s = .next t ∧ (t.reg 0xF#4).toNat = (if a > f then 1 else 0) ∧
      (t.reg z).toNat = (a + 256 - f) % 256) ∧
    (∃ t, exec (.sub 0xF#4 0xF#4) s = .next t ∧ (t.reg 0xF#4).toNat = 0) ∧
    (∃ t, exec (.subn 0xF#4 z) s = .next t ∧ (t.reg 0xF#4).toNat = (if a > f then 1 else 0) ∧
      (t.reg z).toNat = (a + 256 - f) % 256) ∧
    (∃ t, exec (.subn z 0xF#4) s = .next t ∧ (t.reg 0xF#4).toNat = (f + 256 - a) % 256 ∧ t.reg z = s.reg z) ∧
    (∃ t, exec (.subn 0xF#4 0xF#4) s = .next t ∧ (t.reg 0xF#4).toNat = 0) ∧
    (∀ y, ∃ t, exec (.shr 0xF#4 y) s = .next t ∧ (t.reg 0xF#4).toNat = f / 2) ∧
    (∃ t, exec (.shr z 0xF#4) s = .next t ∧ (t.reg 0xF#4).toNat = a % 2) ∧
    (∀ y, ∃ t, exec (.shl 0xF#4 y) s = .next t ∧ (t.reg 0xF#4).toNat = (2 * f) % 256) ∧
    (∃ t, exec (.shl z 0xF#4) s = .next t ∧ (t.reg 0xF#4).toNat = a / 128)

/-- RND: V[X] is the random byte masked by KK, the byte being the host's answer where it handed one in, else free
(R211, the spec's decision D24; log entry 4). -/
def Obligations.RndMasksTheRandomByte : Prop :=
  ∀ (x : RegIdx) (kk : Byte) (s : State),
    exec (.rnd x kk) s =
      .next { s with v := s.v.set x.toNat (s.randomByte &&& kk) x.isLt, pc := s.pc + 2#16, status := .executed } ∧
    (∀ a rest, s.answers = a :: rest → s.randomByte = a.randomByte) ∧
    (s.answers = [] → s.randomByte = Config.randomByte s.draws) ∧
    (∃ t, exec (.rnd x 0x00#8) s = .next t ∧ t.reg x = 0x00#8) ∧
    (∃ t, exec (.rnd x 0xFF#8) s = .next t ∧ t.reg x = s.randomByte)

/-! ## Index register and memory -/

/-- LD_INDEX and ADD_INDEX (R240, R241): I is NNN, or the sum modulo 65536, and VF is not written. -/
def Obligations.IndexLoadAndAdd : Prop :=
  ∀ (strict : Bool) (nnn : Addr12) (x : RegIdx) (s : State),
    decode strict (0xA#4 ++ nnn) = .ok (.ldIndex nnn) ∧
    decode strict (0xF#4 ++ x ++ 0x1E#8) = .ok (.addIndex x) ∧
    exec (.ldIndex nnn) s = .next { s with i := 0x0#4 ++ nnn, pc := s.pc + 2#16, status := .executed } ∧
    ∃ r : Word, r.toNat = (s.i.toNat + (s.reg x).toNat) % 65536 ∧
      exec (.addIndex x) s = .next { s with i := r, pc := s.pc + 2#16, status := .executed }

/-- LD_SPRITE_ADDR: I is five times the whole V[X], a value of 0..1275 (R244; the glyphs themselves are the host's,
the spec's decision D12, log entry 15). -/
def Obligations.SpriteAddressIsFiveTimesTheRegister : Prop :=
  ∀ (x : RegIdx) (s : State),
    ∃ r : Word, r.toNat = 5 * (s.reg x).toNat ∧ r.toNat ≤ 1275 ∧
      exec (.ldSpriteAddr x) s = .next { s with i := r, pc := s.pc + 2#16, status := .executed }

/-- LD_BCD (R245): inside memory it stores the three decimal digits at I, I + 1, I + 2, leaves every other byte and
every other component, and completes; past the end it faults. -/
def Obligations.BcdStoresThreeDigits : Prop :=
  ∀ (strict : Bool) (x : RegIdx) (s : State), s.mem.wf →
    decode strict (0xF#4 ++ x ++ 0x33#8) = .ok (.ldBcd x) ∧
    (s.i.toNat + 2 ≤ 4095 → ∃ t, exec (.ldBcd x) s = .next t ∧
      (t.mem.read s.i.toNat).toNat = (s.reg x).toNat / 100 ∧
      (t.mem.read (s.i.toNat + 1)).toNat = (s.reg x).toNat / 10 % 10 ∧
      (t.mem.read (s.i.toNat + 2)).toNat = (s.reg x).toNat % 10 ∧
      (∀ a, a < s.i.toNat ∨ s.i.toNat + 2 < a → t.mem.read a = s.mem.read a) ∧
      t = { s with mem := t.mem, pc := s.pc + 2#16, status := .executed }) ∧
    (4095 < s.i.toNat + 2 → exec (.ldBcd x) s = .fault (.memoryOutOfBounds s.i.toNat 3))

/-- LD_REGS_TO_MEM: inside memory it stores V0..V[X] at I.., leaves every other byte, I included every other component,
and completes; past the end it faults with nothing written (R246; I unchanged is the spec's decision D20, log entry
17). -/
def Obligations.BlockStoreWritesTheRegisters : Prop :=
  ∀ (x : RegIdx) (s : State), s.mem.wf →
    (s.i.toNat + x.toNat ≤ 4095 → ∃ t, exec (.ldRegsToMem x) s = .next t ∧
      (∀ j : RegIdx, j.toNat ≤ x.toNat → t.mem.read (s.i.toNat + j.toNat) = s.reg j) ∧
      (∀ a, a < s.i.toNat ∨ s.i.toNat + x.toNat < a → t.mem.read a = s.mem.read a) ∧
      t = { s with mem := t.mem, pc := s.pc + 2#16, status := .executed }) ∧
    (4095 < s.i.toNat + x.toNat → exec (.ldRegsToMem x) s = .fault (.memoryOutOfBounds s.i.toNat (x.toNat + 1)))

/-- LD_MEM_TO_REGS: inside memory it loads V0..V[X] from I.., leaves every other register, all of memory and I, and
completes; past the end it faults with nothing written (R247; I unchanged is the spec's decision D20, log entry 17). -/
def Obligations.BlockLoadReadsTheRegisters : Prop :=
  ∀ (x : RegIdx) (s : State),
    (s.i.toNat + x.toNat ≤ 4095 → ∃ t, exec (.ldMemToRegs x) s = .next t ∧
      (∀ j : RegIdx, j.toNat ≤ x.toNat → t.reg j = s.mem.read (s.i.toNat + j.toNat)) ∧
      (∀ j : RegIdx, x.toNat < j.toNat → t.reg j = s.reg j) ∧
      t = { s with v := t.v, pc := s.pc + 2#16, status := .executed }) ∧
    (4095 < s.i.toNat + x.toNat → exec (.ldMemToRegs x) s = .fault (.memoryOutOfBounds s.i.toNat (x.toNat + 1)))

/-- A block load that finds memory and I as a block store of the same length left them gives the stored registers
back, whatever the registers hold by then (R246, R247; the spec's decision D20). -/
def Obligations.BlockLoadUndoesBlockStore : Prop :=
  ∀ (x : RegIdx) (s t u : State), s.mem.wf → exec (.ldRegsToMem x) s = .next t → u.mem = t.mem → u.i = t.i →
    ∃ w, exec (.ldMemToRegs x) u = .next w ∧ ∀ j : RegIdx, j.toNat ≤ x.toNat → w.reg j = s.reg j

/-! ## Display -/

/-- CLS (R270): every pixel is 0 and the pc advances, and nothing else changes, VF included. -/
def Obligations.ClsClearsEveryPixel : Prop :=
  ∀ (strict : Bool) (g : BitVec 8) (s : State),
    decode strict (0x0#4 ++ g ++ 0x0#4) = .ok (.cls g) ∧
    ∃ f : Framebuffer, (∀ px py, f.pixel px py = false) ∧
      exec (.cls g) s = .next { s with fb := f, pc := s.pc + 2#16, status := .executed }

/-- DRW: where its sprite lies inside memory, or N = 0, it completes; every pixel is inverted exactly where the sprite
has a set bit on it, with both coordinates wrapping on their own; and nothing but FB, VF and the pc changes (R271,
R272, R276; bit 7 leftmost, N = 0 and latching are the spec's decisions D10, D11 and D5, log entries 12 and 13). Past
the end it faults. -/
def Obligations.DrwXorsTheSpriteIntoTheScreen : Prop :=
  ∀ (x y : RegIdx) (n : Nibble) (s : State),
    ((n.toNat = 0 ∨ s.i.toNat + n.toNat - 1 ≤ 4095) → ∃ t, exec (.drw x y n) s = .next t ∧
      (∀ px py, t.fb.pixel px py =
        (s.fb.pixel px py ^^
          spriteCovers s.mem s.i.toNat n.toNat (s.reg x).toNat (s.reg y).toNat px py)) ∧
      t = { s with fb := t.fb, v := s.v.set 15 (t.reg 0xF#4), pc := s.pc + 2#16, status := .executed }) ∧
    (0 < n.toNat ∧ 4095 < s.i.toNat + n.toNat - 1 →
      exec (.drw x y n) s = .fault (.memoryOutOfBounds s.i.toNat n.toNat))

/-- DRW's flag: VF is 1 iff some set sprite bit lands on a pixel that was 1, which is 0 afterwards, else it is 0 (R273;
the place of a sprite bit is the spec's decision D10, log entry 13). -/
def Obligations.DrwReportsCollisions : Prop :=
  ∀ (x y : RegIdx) (n : Nibble) (s t : State), exec (.drw x y n) s = .next t →
    (t.reg 0xF#4 = 1#8 ∨ t.reg 0xF#4 = 0#8) ∧
    (t.reg 0xF#4 = 1#8 ↔ ∃ px py,
      spriteCovers s.mem s.i.toNat n.toNat (s.reg x).toNat (s.reg y).toNat px py = true ∧
      s.fb.pixel px py = true ∧ t.fb.pixel px py = false)

/-- Drawing the same sprite twice at one place restores the framebuffer; the second draw collides iff some pixel under
a set bit was 0 before the first, and one of the two draws collides iff the sprite has a set bit at all. R271's corner
case says the second draw collides if the sprite has any set bit: by R271's own pseudocode that holds where those
pixels were not all 1 before (log entry 18). X and Y are not VF, since the first draw writes it. -/
def Obligations.DrawingTwiceRestoresTheScreen : Prop :=
  ∀ (x y : RegIdx) (n : Nibble) (s t : State), x ≠ 0xF#4 → y ≠ 0xF#4 → exec (.drw x y n) s = .next t →
    ∃ u, exec (.drw x y n) t = .next u ∧ u.fb = s.fb ∧
      (u.reg 0xF#4 = 1#8 ↔ ∃ px py,
        spriteCovers s.mem s.i.toNat n.toNat (s.reg x).toNat (s.reg y).toNat px py = true ∧
        s.fb.pixel px py = false) ∧
      (t.reg 0xF#4 = 1#8 ∨ u.reg 0xF#4 = 1#8 ↔ ∃ row, row < n.toNat ∧ s.mem.read (s.i.toNat + row) ≠ 0#8)

/-! ## Keypad and timers -/

/-- LD_KEYPRESS: a key event puts the whole key index into V[X] and advances; without one nothing changes but the
status the step returns, and the pc still addresses the instruction (R292, R144, the spec's decisions D8 and D9); the
event is the host's where it handed one in with the step, else free (log entries 3 and 4). -/
def Obligations.KeypressLoadsOrWaits : Prop :=
  ∀ (x : RegIdx) (s : State),
    (∀ k, s.keyEvent = some k → exec (.ldKeypress x) s =
      .next { s with v := s.v.set x.toNat k x.isLt, pc := s.pc + 2#16, status := .executed }) ∧
    (s.keyEvent = none → exec (.ldKeypress x) s = .next { s with status := .awaitingInput }) ∧
    (∀ a rest, s.answers = a :: rest → s.keyEvent = a.keyEvent) ∧
    (s.answers = [] → s.keyEvent = Config.keyEvent s.draws)

/-- LD_FROM_DELAY, LD_TO_DELAY and LD_TO_SOUND (R293, R294, R295): the one move, and nothing else but the pc changes. -/
def Obligations.TimerMoves : Prop :=
  ∀ (strict : Bool) (x : RegIdx) (s : State),
    decode strict (0xF#4 ++ x ++ 0x07#8) = .ok (.ldFromDelay x) ∧
    decode strict (0xF#4 ++ x ++ 0x15#8) = .ok (.ldToDelay x) ∧
    decode strict (0xF#4 ++ x ++ 0x18#8) = .ok (.ldToSound x) ∧
    exec (.ldFromDelay x) s =
      .next { s with v := s.v.set x.toNat s.dt x.isLt, pc := s.pc + 2#16, status := .executed } ∧
    exec (.ldToDelay x) s = .next { s with dt := s.reg x, pc := s.pc + 2#16, status := .executed } ∧
    exec (.ldToSound x) s = .next { s with st := s.reg x, pc := s.pc + 2#16, status := .executed }

/-- tick_timers (R150): each timer down by 1 while nonzero, on its own, and nothing else changes. -/
def Obligations.TickDecrementsEachTimer : Prop :=
  ∀ s : State, ∃ d e : Byte,
    d.toNat = (if s.dt.toNat > 0 then s.dt.toNat - 1 else 0) ∧
    e.toNat = (if s.st.toNat > 0 then s.st.toNat - 1 else 0) ∧
    s.tickTimers = { s with dt := d, st := e } ∧ transact s .tickTimers = (s.tickTimers, .ok)

/-- Any number of ticks: each timer falls by one per tick, never below 0, and nothing else changes (R38, R347, R294's
example). -/
def Obligations.TicksCountDownToZero : Prop :=
  ∀ (k : Nat) (s : State), ∃ d e : Byte,
    d.toNat = s.dt.toNat - k ∧ e.toNat = s.st.toNat - k ∧
    runHost s (List.replicate k .tickTimers) = ({ s with dt := d, st := e }, List.replicate k .ok)

/-- load_program copies the bytes to origin.., leaves every other byte and every other component, the pc included; a
sequence that does not fit is rejected with nothing written, and an empty one writes nothing (R152, R153, the spec's
decision D14). -/
def Obligations.LoadProgramCopiesItsBytes : Prop :=
  ∀ (bytes : List Byte) (origin : Nat) (s : State), s.mem.wf →
    ((bytes = [] ∨ origin + bytes.length - 1 ≤ 4095) → ∃ m : Memory,
      transact s (.loadProgram bytes origin) = ({ s with mem := m }, .ok) ∧
      (∀ j (h : j < bytes.length), m.read (origin + j) = bytes[j]) ∧
      (∀ a, a < origin ∨ origin + bytes.length ≤ a → m.read a = s.mem.read a)) ∧
    (bytes ≠ [] → 4095 < origin + bytes.length - 1 →
      transact s (.loadProgram bytes origin) = (s, .err (.memoryOutOfBounds origin bytes.length)))

/-! ## The step as a transaction -/

/-- The step transaction (R131, R154, the spec's decision D7): the host's answers go in front of the pending ones, a
step that completes reports Ok with its status and leaves its next state, and one that faults reports the fault and
leaves the machine as it was. How the answers are handed in, and the field the status stands in, are the model's choice
(log entries 3 and 4). -/
def Obligations.StepTransactionReportsTheStep : Prop :=
  ∀ (s : State) (inputs : Option Answers),
    s.offer none = s ∧ (∀ a, s.offer (some a) = { s with answers := a :: s.answers }) ∧
    (∀ t, step (s.offer inputs) = .next t → transact s (.step inputs) = (t, .stepped t.status)) ∧
    (∀ f, step (s.offer inputs) = .fault f → transact s (.step inputs) = (s, .err f))
end

