-- ==== Sys2Proof/Laws/Decode.lean ====
section
/-! SUPPORT. The laws of the decoder and the encoder: when decoding fails, what the fields of an encoded word are, and
how a word is put together from its fields. -/

namespace Sys2Proof

/-! ## When decoding fails -/

theorem unmatched_error {strict : Bool} {op : Word} {e : DecodeError} (h : unmatched strict op = .error e) :
    strict = true ∧ e = .unsupported op := by
  unfold unmatched at h
  split at h
  · injection h with h; exact ⟨by assumption, h.symm⟩
  · cases h

/-- A decode fails only under strict decode, and names the word (R104, R105). -/
theorem decode_error {strict : Bool} {op : Word} {e : DecodeError} (h : decode strict op = .error e) :
    strict = true ∧ e = .unsupported op := by
  unfold decode decodeGroup0 decodeGroup8 decodeGroupE decodeGroupF at h
  repeat' split at h
  all_goals first
    | exact unmatched_error h
    | exact absurd h (by simp)

/-- A word that strict decode rejects is the fallback SYS by default (R104, R105). -/
theorem decode_false_of_strict_error {op : Word} {e : DecodeError} (h : decode true op = .error e) :
    decode false op = .ok (.sysUnmatched op) := by
  unfold decode decodeGroup0 decodeGroup8 decodeGroupE decodeGroupF unmatched at h ⊢
  repeat' split at h
  all_goals simp_all

/-- A word that strict decode accepts decodes alike by default (R105). -/
theorem decode_false_of_strict_ok {op : Word} {i : Instr} (h : decode true op = .ok i) :
    decode false op = .ok i := by
  unfold decode decodeGroup0 decodeGroup8 decodeGroupE decodeGroupF unmatched at h ⊢
  repeat' split at h
  all_goals simp_all

/-! ## The fields of a word put together from its fields -/

/-- The value of a concatenation. -/
theorem toNat_concat {m n : Nat} (a : BitVec m) (b : BitVec n) : (a ++ b).toNat = a.toNat * 2 ^ n + b.toNat := by
  rw [BitVec.toNat_append, Nat.shiftLeft_eq, Nat.mul_comm, Nat.two_pow_add_eq_or_of_lt b.isLt]

theorem opN0_concat (a : Nibble) (b : BitVec 12) : opN0 (a ++ b) = a := by
  apply BitVec.eq_of_toNat_eq
  have := a.isLt; have := b.isLt
  simp only [opN0, BitVec.extractLsb'_toNat, toNat_concat, Nat.shiftRight_eq_div_pow]
  omega

theorem opNNN_concat (a : Nibble) (b : BitVec 12) : opNNN (a ++ b) = b := by
  apply BitVec.eq_of_toNat_eq
  have := a.isLt; have := b.isLt
  simp only [opNNN, BitVec.extractLsb'_toNat, toNat_concat, Nat.shiftRight_eq_div_pow]
  omega

theorem opN0_concat3 (a x : Nibble) (k : Byte) : opN0 (a ++ x ++ k) = a := by
  apply BitVec.eq_of_toNat_eq
  have := a.isLt; have := x.isLt; have := k.isLt
  simp only [opN0, BitVec.extractLsb'_toNat, toNat_concat, Nat.shiftRight_eq_div_pow]
  omega

theorem opN1_concat3 (a x : Nibble) (k : Byte) : opN1 (a ++ x ++ k) = x := by
  apply BitVec.eq_of_toNat_eq
  have := a.isLt; have := x.isLt; have := k.isLt
  simp only [opN1, BitVec.extractLsb'_toNat, toNat_concat, Nat.shiftRight_eq_div_pow]
  omega

theorem opKK_concat3 (a x : Nibble) (k : Byte) : opKK (a ++ x ++ k) = k := by
  apply BitVec.eq_of_toNat_eq
  have := a.isLt; have := x.isLt; have := k.isLt
  simp only [opKK, BitVec.extractLsb'_toNat, toNat_concat, Nat.shiftRight_eq_div_pow]
  omega

theorem opN0_concat4 (a x y n : Nibble) : opN0 (a ++ x ++ y ++ n) = a := by
  apply BitVec.eq_of_toNat_eq
  have := a.isLt; have := x.isLt; have := y.isLt; have := n.isLt
  simp only [opN0, BitVec.extractLsb'_toNat, toNat_concat, Nat.shiftRight_eq_div_pow]
  omega

theorem opN1_concat4 (a x y n : Nibble) : opN1 (a ++ x ++ y ++ n) = x := by
  apply BitVec.eq_of_toNat_eq
  have := a.isLt; have := x.isLt; have := y.isLt; have := n.isLt
  simp only [opN1, BitVec.extractLsb'_toNat, toNat_concat, Nat.shiftRight_eq_div_pow]
  omega

theorem opN2_concat4 (a x y n : Nibble) : opN2 (a ++ x ++ y ++ n) = y := by
  apply BitVec.eq_of_toNat_eq
  have := a.isLt; have := x.isLt; have := y.isLt; have := n.isLt
  simp only [opN2, BitVec.extractLsb'_toNat, toNat_concat, Nat.shiftRight_eq_div_pow]
  omega

theorem opN3_concat4 (a x y n : Nibble) : opN3 (a ++ x ++ y ++ n) = n := by
  apply BitVec.eq_of_toNat_eq
  have := a.isLt; have := x.isLt; have := y.isLt; have := n.isLt
  simp only [opN3, BitVec.extractLsb'_toNat, toNat_concat, Nat.shiftRight_eq_div_pow]
  omega

theorem opN0_concat_ignored (a n : Nibble) (k : BitVec 8) : opN0 (a ++ k ++ n) = a := by
  apply BitVec.eq_of_toNat_eq
  have := a.isLt; have := k.isLt; have := n.isLt
  simp only [opN0, BitVec.extractLsb'_toNat, toNat_concat, Nat.shiftRight_eq_div_pow]
  omega

theorem opN12_concat_ignored (a n : Nibble) (k : BitVec 8) : opN12 (a ++ k ++ n) = k := by
  apply BitVec.eq_of_toNat_eq
  have := a.isLt; have := k.isLt; have := n.isLt
  simp only [opN12, BitVec.extractLsb'_toNat, toNat_concat, Nat.shiftRight_eq_div_pow]
  omega

theorem opN3_concat_ignored (a n : Nibble) (k : BitVec 8) : opN3 (a ++ k ++ n) = n := by
  apply BitVec.eq_of_toNat_eq
  have := a.isLt; have := k.isLt; have := n.isLt
  simp only [opN3, BitVec.extractLsb'_toNat, toNat_concat, Nat.shiftRight_eq_div_pow]
  omega

/-! ## A word from its fields -/

theorem concat_opN0_opNNN (op : Word) : opN0 op ++ opNNN op = op := by
  apply BitVec.eq_of_toNat_eq
  have := op.isLt
  simp only [opN0, opNNN, BitVec.extractLsb'_toNat, toNat_concat, Nat.shiftRight_eq_div_pow]
  omega

theorem concat_opN0_opN1_opKK (op : Word) : opN0 op ++ opN1 op ++ opKK op = op := by
  apply BitVec.eq_of_toNat_eq
  have := op.isLt
  simp only [opN0, opN1, opKK, BitVec.extractLsb'_toNat, toNat_concat, Nat.shiftRight_eq_div_pow]
  omega

theorem concat_opN0_opN1_opN2_opN3 (op : Word) : opN0 op ++ opN1 op ++ opN2 op ++ opN3 op = op := by
  apply BitVec.eq_of_toNat_eq
  have := op.isLt
  simp only [opN0, opN1, opN2, opN3, BitVec.extractLsb'_toNat, toNat_concat, Nat.shiftRight_eq_div_pow]
  omega

theorem concat_opN0_opN12_opN3 (op : Word) : opN0 op ++ opN12 op ++ opN3 op = op := by
  apply BitVec.eq_of_toNat_eq
  have := op.isLt
  simp only [opN0, opN12, opN3, BitVec.extractLsb'_toNat, toNat_concat, Nat.shiftRight_eq_div_pow]
  omega

/-- The two bytes of a word make the word (R60). -/
@[simp] theorem wordOfBytes_highByte_lowByte (op : Word) : wordOfBytes (highByte op) (lowByte op) = op := by
  apply BitVec.eq_of_toNat_eq
  have := op.isLt
  simp only [wordOfBytes, highByte, lowByte, BitVec.extractLsb'_toNat, toNat_concat, Nat.shiftRight_eq_div_pow]
  omega

end Sys2Proof
end

