-- ==== Sys2Proof/Laws/State.lean ====
section
/-! SUPPORT. One lemma per field per update of State: what the update leaves in the field. -/

-- Some two hundred lemmas by rfl: elaborated in order, so that they do not each take a thread.
set_option Elab.async false

namespace Sys2Proof.Machine

/-! ## setReg -/

@[simp] theorem State.setReg_v (s : State) (x : RegIdx) (b : Byte) : (s.setReg x b).v = s.v.set x.toNat b x.isLt := rfl
@[simp] theorem State.setReg_i (s : State) (x : RegIdx) (b : Byte) : (s.setReg x b).i = s.i := rfl
@[simp] theorem State.setReg_pc (s : State) (x : RegIdx) (b : Byte) : (s.setReg x b).pc = s.pc := rfl
@[simp] theorem State.setReg_stack (s : State) (x : RegIdx) (b : Byte) : (s.setReg x b).stack = s.stack := rfl
@[simp] theorem State.setReg_dt (s : State) (x : RegIdx) (b : Byte) : (s.setReg x b).dt = s.dt := rfl
@[simp] theorem State.setReg_st (s : State) (x : RegIdx) (b : Byte) : (s.setReg x b).st = s.st := rfl
@[simp] theorem State.setReg_mem (s : State) (x : RegIdx) (b : Byte) : (s.setReg x b).mem = s.mem := rfl
@[simp] theorem State.setReg_fb (s : State) (x : RegIdx) (b : Byte) : (s.setReg x b).fb = s.fb := rfl
@[simp] theorem State.setReg_params (s : State) (x : RegIdx) (b : Byte) : (s.setReg x b).params = s.params := rfl
@[simp] theorem State.setReg_answers (s : State) (x : RegIdx) (b : Byte) : (s.setReg x b).answers = s.answers := rfl
@[simp] theorem State.setReg_draws (s : State) (x : RegIdx) (b : Byte) : (s.setReg x b).draws = s.draws := rfl
@[simp] theorem State.setReg_status (s : State) (x : RegIdx) (b : Byte) : (s.setReg x b).status = s.status := rfl

/-! ## setVF -/

@[simp] theorem State.setVF_v (s : State) (b : Byte) : (s.setVF b).v = s.v.set regF.toNat b regF.isLt := rfl
@[simp] theorem State.setVF_i (s : State) (b : Byte) : (s.setVF b).i = s.i := rfl
@[simp] theorem State.setVF_pc (s : State) (b : Byte) : (s.setVF b).pc = s.pc := rfl
@[simp] theorem State.setVF_stack (s : State) (b : Byte) : (s.setVF b).stack = s.stack := rfl
@[simp] theorem State.setVF_dt (s : State) (b : Byte) : (s.setVF b).dt = s.dt := rfl
@[simp] theorem State.setVF_st (s : State) (b : Byte) : (s.setVF b).st = s.st := rfl
@[simp] theorem State.setVF_mem (s : State) (b : Byte) : (s.setVF b).mem = s.mem := rfl
@[simp] theorem State.setVF_fb (s : State) (b : Byte) : (s.setVF b).fb = s.fb := rfl
@[simp] theorem State.setVF_params (s : State) (b : Byte) : (s.setVF b).params = s.params := rfl
@[simp] theorem State.setVF_answers (s : State) (b : Byte) : (s.setVF b).answers = s.answers := rfl
@[simp] theorem State.setVF_draws (s : State) (b : Byte) : (s.setVF b).draws = s.draws := rfl
@[simp] theorem State.setVF_status (s : State) (b : Byte) : (s.setVF b).status = s.status := rfl

/-! ## setMem -/

@[simp] theorem State.setMem_v (s : State) (m : Memory) : (s.setMem m).v = s.v := rfl
@[simp] theorem State.setMem_i (s : State) (m : Memory) : (s.setMem m).i = s.i := rfl
@[simp] theorem State.setMem_pc (s : State) (m : Memory) : (s.setMem m).pc = s.pc := rfl
@[simp] theorem State.setMem_stack (s : State) (m : Memory) : (s.setMem m).stack = s.stack := rfl
@[simp] theorem State.setMem_dt (s : State) (m : Memory) : (s.setMem m).dt = s.dt := rfl
@[simp] theorem State.setMem_st (s : State) (m : Memory) : (s.setMem m).st = s.st := rfl
@[simp] theorem State.setMem_mem (s : State) (m : Memory) : (s.setMem m).mem = m := rfl
@[simp] theorem State.setMem_fb (s : State) (m : Memory) : (s.setMem m).fb = s.fb := rfl
@[simp] theorem State.setMem_params (s : State) (m : Memory) : (s.setMem m).params = s.params := rfl
@[simp] theorem State.setMem_answers (s : State) (m : Memory) : (s.setMem m).answers = s.answers := rfl
@[simp] theorem State.setMem_draws (s : State) (m : Memory) : (s.setMem m).draws = s.draws := rfl
@[simp] theorem State.setMem_status (s : State) (m : Memory) : (s.setMem m).status = s.status := rfl

/-! ## setI -/

@[simp] theorem State.setI_v (s : State) (w : Word) : (s.setI w).v = s.v := rfl
@[simp] theorem State.setI_i (s : State) (w : Word) : (s.setI w).i = w := rfl
@[simp] theorem State.setI_pc (s : State) (w : Word) : (s.setI w).pc = s.pc := rfl
@[simp] theorem State.setI_stack (s : State) (w : Word) : (s.setI w).stack = s.stack := rfl
@[simp] theorem State.setI_dt (s : State) (w : Word) : (s.setI w).dt = s.dt := rfl
@[simp] theorem State.setI_st (s : State) (w : Word) : (s.setI w).st = s.st := rfl
@[simp] theorem State.setI_mem (s : State) (w : Word) : (s.setI w).mem = s.mem := rfl
@[simp] theorem State.setI_fb (s : State) (w : Word) : (s.setI w).fb = s.fb := rfl
@[simp] theorem State.setI_params (s : State) (w : Word) : (s.setI w).params = s.params := rfl
@[simp] theorem State.setI_answers (s : State) (w : Word) : (s.setI w).answers = s.answers := rfl
@[simp] theorem State.setI_draws (s : State) (w : Word) : (s.setI w).draws = s.draws := rfl
@[simp] theorem State.setI_status (s : State) (w : Word) : (s.setI w).status = s.status := rfl

/-! ## setDT -/

@[simp] theorem State.setDT_v (s : State) (b : Byte) : (s.setDT b).v = s.v := rfl
@[simp] theorem State.setDT_i (s : State) (b : Byte) : (s.setDT b).i = s.i := rfl
@[simp] theorem State.setDT_pc (s : State) (b : Byte) : (s.setDT b).pc = s.pc := rfl
@[simp] theorem State.setDT_stack (s : State) (b : Byte) : (s.setDT b).stack = s.stack := rfl
@[simp] theorem State.setDT_dt (s : State) (b : Byte) : (s.setDT b).dt = b := rfl
@[simp] theorem State.setDT_st (s : State) (b : Byte) : (s.setDT b).st = s.st := rfl
@[simp] theorem State.setDT_mem (s : State) (b : Byte) : (s.setDT b).mem = s.mem := rfl
@[simp] theorem State.setDT_fb (s : State) (b : Byte) : (s.setDT b).fb = s.fb := rfl
@[simp] theorem State.setDT_params (s : State) (b : Byte) : (s.setDT b).params = s.params := rfl
@[simp] theorem State.setDT_answers (s : State) (b : Byte) : (s.setDT b).answers = s.answers := rfl
@[simp] theorem State.setDT_draws (s : State) (b : Byte) : (s.setDT b).draws = s.draws := rfl
@[simp] theorem State.setDT_status (s : State) (b : Byte) : (s.setDT b).status = s.status := rfl

/-! ## setST -/

@[simp] theorem State.setST_v (s : State) (b : Byte) : (s.setST b).v = s.v := rfl
@[simp] theorem State.setST_i (s : State) (b : Byte) : (s.setST b).i = s.i := rfl
@[simp] theorem State.setST_pc (s : State) (b : Byte) : (s.setST b).pc = s.pc := rfl
@[simp] theorem State.setST_stack (s : State) (b : Byte) : (s.setST b).stack = s.stack := rfl
@[simp] theorem State.setST_dt (s : State) (b : Byte) : (s.setST b).dt = s.dt := rfl
@[simp] theorem State.setST_st (s : State) (b : Byte) : (s.setST b).st = b := rfl
@[simp] theorem State.setST_mem (s : State) (b : Byte) : (s.setST b).mem = s.mem := rfl
@[simp] theorem State.setST_fb (s : State) (b : Byte) : (s.setST b).fb = s.fb := rfl
@[simp] theorem State.setST_params (s : State) (b : Byte) : (s.setST b).params = s.params := rfl
@[simp] theorem State.setST_answers (s : State) (b : Byte) : (s.setST b).answers = s.answers := rfl
@[simp] theorem State.setST_draws (s : State) (b : Byte) : (s.setST b).draws = s.draws := rfl
@[simp] theorem State.setST_status (s : State) (b : Byte) : (s.setST b).status = s.status := rfl

/-! ## setFB -/

@[simp] theorem State.setFB_v (s : State) (f : Framebuffer) : (s.setFB f).v = s.v := rfl
@[simp] theorem State.setFB_i (s : State) (f : Framebuffer) : (s.setFB f).i = s.i := rfl
@[simp] theorem State.setFB_pc (s : State) (f : Framebuffer) : (s.setFB f).pc = s.pc := rfl
@[simp] theorem State.setFB_stack (s : State) (f : Framebuffer) : (s.setFB f).stack = s.stack := rfl
@[simp] theorem State.setFB_dt (s : State) (f : Framebuffer) : (s.setFB f).dt = s.dt := rfl
@[simp] theorem State.setFB_st (s : State) (f : Framebuffer) : (s.setFB f).st = s.st := rfl
@[simp] theorem State.setFB_mem (s : State) (f : Framebuffer) : (s.setFB f).mem = s.mem := rfl
@[simp] theorem State.setFB_fb (s : State) (f : Framebuffer) : (s.setFB f).fb = f := rfl
@[simp] theorem State.setFB_params (s : State) (f : Framebuffer) : (s.setFB f).params = s.params := rfl
@[simp] theorem State.setFB_answers (s : State) (f : Framebuffer) : (s.setFB f).answers = s.answers := rfl
@[simp] theorem State.setFB_draws (s : State) (f : Framebuffer) : (s.setFB f).draws = s.draws := rfl
@[simp] theorem State.setFB_status (s : State) (f : Framebuffer) : (s.setFB f).status = s.status := rfl

/-! ## retire -/

@[simp] theorem State.retire_v (s : State) (t : Word) : (s.retire t).v = s.v := rfl
@[simp] theorem State.retire_i (s : State) (t : Word) : (s.retire t).i = s.i := rfl
@[simp] theorem State.retire_pc (s : State) (t : Word) : (s.retire t).pc = t := rfl
@[simp] theorem State.retire_stack (s : State) (t : Word) : (s.retire t).stack = s.stack := rfl
@[simp] theorem State.retire_dt (s : State) (t : Word) : (s.retire t).dt = s.dt := rfl
@[simp] theorem State.retire_st (s : State) (t : Word) : (s.retire t).st = s.st := rfl
@[simp] theorem State.retire_mem (s : State) (t : Word) : (s.retire t).mem = s.mem := rfl
@[simp] theorem State.retire_fb (s : State) (t : Word) : (s.retire t).fb = s.fb := rfl
@[simp] theorem State.retire_params (s : State) (t : Word) : (s.retire t).params = s.params := rfl
@[simp] theorem State.retire_answers (s : State) (t : Word) : (s.retire t).answers = s.answers := rfl
@[simp] theorem State.retire_draws (s : State) (t : Word) : (s.retire t).draws = s.draws := rfl
@[simp] theorem State.retire_status (s : State) (t : Word) : (s.retire t).status = .executed := rfl

/-! ## advance -/

@[simp] theorem State.advance_v (s : State) : (s.advance).v = s.v := rfl
@[simp] theorem State.advance_i (s : State) : (s.advance).i = s.i := rfl
@[simp] theorem State.advance_pc (s : State) : (s.advance).pc = s.pc + 2#16 := rfl
@[simp] theorem State.advance_stack (s : State) : (s.advance).stack = s.stack := rfl
@[simp] theorem State.advance_dt (s : State) : (s.advance).dt = s.dt := rfl
@[simp] theorem State.advance_st (s : State) : (s.advance).st = s.st := rfl
@[simp] theorem State.advance_mem (s : State) : (s.advance).mem = s.mem := rfl
@[simp] theorem State.advance_fb (s : State) : (s.advance).fb = s.fb := rfl
@[simp] theorem State.advance_params (s : State) : (s.advance).params = s.params := rfl
@[simp] theorem State.advance_answers (s : State) : (s.advance).answers = s.answers := rfl
@[simp] theorem State.advance_draws (s : State) : (s.advance).draws = s.draws := rfl
@[simp] theorem State.advance_status (s : State) : (s.advance).status = .executed := rfl

/-! ## skipIf -/

@[simp] theorem State.skipIf_v (s : State) (c : Bool) : (s.skipIf c).v = s.v := rfl
@[simp] theorem State.skipIf_i (s : State) (c : Bool) : (s.skipIf c).i = s.i := rfl
@[simp] theorem State.skipIf_pc (s : State) (c : Bool) : (s.skipIf c).pc = if c then s.pc + 4#16 else s.pc + 2#16 := rfl
@[simp] theorem State.skipIf_stack (s : State) (c : Bool) : (s.skipIf c).stack = s.stack := rfl
@[simp] theorem State.skipIf_dt (s : State) (c : Bool) : (s.skipIf c).dt = s.dt := rfl
@[simp] theorem State.skipIf_st (s : State) (c : Bool) : (s.skipIf c).st = s.st := rfl
@[simp] theorem State.skipIf_mem (s : State) (c : Bool) : (s.skipIf c).mem = s.mem := rfl
@[simp] theorem State.skipIf_fb (s : State) (c : Bool) : (s.skipIf c).fb = s.fb := rfl
@[simp] theorem State.skipIf_params (s : State) (c : Bool) : (s.skipIf c).params = s.params := rfl
@[simp] theorem State.skipIf_answers (s : State) (c : Bool) : (s.skipIf c).answers = s.answers := rfl
@[simp] theorem State.skipIf_draws (s : State) (c : Bool) : (s.skipIf c).draws = s.draws := rfl
@[simp] theorem State.skipIf_status (s : State) (c : Bool) : (s.skipIf c).status = .executed := rfl

/-! ## await -/

@[simp] theorem State.await_v (s : State) : (s.await).v = s.v := rfl
@[simp] theorem State.await_i (s : State) : (s.await).i = s.i := rfl
@[simp] theorem State.await_pc (s : State) : (s.await).pc = s.pc := rfl
@[simp] theorem State.await_stack (s : State) : (s.await).stack = s.stack := rfl
@[simp] theorem State.await_dt (s : State) : (s.await).dt = s.dt := rfl
@[simp] theorem State.await_st (s : State) : (s.await).st = s.st := rfl
@[simp] theorem State.await_mem (s : State) : (s.await).mem = s.mem := rfl
@[simp] theorem State.await_fb (s : State) : (s.await).fb = s.fb := rfl
@[simp] theorem State.await_params (s : State) : (s.await).params = s.params := rfl
@[simp] theorem State.await_answers (s : State) : (s.await).answers = s.answers := rfl
@[simp] theorem State.await_draws (s : State) : (s.await).draws = s.draws := rfl
@[simp] theorem State.await_status (s : State) : (s.await).status = .awaitingInput := rfl

/-! ## setFlagThenReg -/

@[simp] theorem State.setFlagThenReg_v (s : State) (f : Byte) (d : RegIdx) (b : Byte) : (s.setFlagThenReg f d b).v = (s.v.set regF.toNat f regF.isLt).set d.toNat b d.isLt := rfl
@[simp] theorem State.setFlagThenReg_i (s : State) (f : Byte) (d : RegIdx) (b : Byte) : (s.setFlagThenReg f d b).i = s.i := rfl
@[simp] theorem State.setFlagThenReg_pc (s : State) (f : Byte) (d : RegIdx) (b : Byte) : (s.setFlagThenReg f d b).pc = s.pc := rfl
@[simp] theorem State.setFlagThenReg_stack (s : State) (f : Byte) (d : RegIdx) (b : Byte) : (s.setFlagThenReg f d b).stack = s.stack := rfl
@[simp] theorem State.setFlagThenReg_dt (s : State) (f : Byte) (d : RegIdx) (b : Byte) : (s.setFlagThenReg f d b).dt = s.dt := rfl
@[simp] theorem State.setFlagThenReg_st (s : State) (f : Byte) (d : RegIdx) (b : Byte) : (s.setFlagThenReg f d b).st = s.st := rfl
@[simp] theorem State.setFlagThenReg_mem (s : State) (f : Byte) (d : RegIdx) (b : Byte) : (s.setFlagThenReg f d b).mem = s.mem := rfl
@[simp] theorem State.setFlagThenReg_fb (s : State) (f : Byte) (d : RegIdx) (b : Byte) : (s.setFlagThenReg f d b).fb = s.fb := rfl
@[simp] theorem State.setFlagThenReg_params (s : State) (f : Byte) (d : RegIdx) (b : Byte) : (s.setFlagThenReg f d b).params = s.params := rfl
@[simp] theorem State.setFlagThenReg_answers (s : State) (f : Byte) (d : RegIdx) (b : Byte) : (s.setFlagThenReg f d b).answers = s.answers := rfl
@[simp] theorem State.setFlagThenReg_draws (s : State) (f : Byte) (d : RegIdx) (b : Byte) : (s.setFlagThenReg f d b).draws = s.draws := rfl
@[simp] theorem State.setFlagThenReg_status (s : State) (f : Byte) (d : RegIdx) (b : Byte) : (s.setFlagThenReg f d b).status = s.status := rfl

/-! ## nextDraw -/

@[simp] theorem State.nextDraw_v (s : State) : (s.nextDraw).v = s.v := rfl
@[simp] theorem State.nextDraw_i (s : State) : (s.nextDraw).i = s.i := rfl
@[simp] theorem State.nextDraw_pc (s : State) : (s.nextDraw).pc = s.pc := rfl
@[simp] theorem State.nextDraw_stack (s : State) : (s.nextDraw).stack = s.stack := rfl
@[simp] theorem State.nextDraw_dt (s : State) : (s.nextDraw).dt = s.dt := rfl
@[simp] theorem State.nextDraw_st (s : State) : (s.nextDraw).st = s.st := rfl
@[simp] theorem State.nextDraw_mem (s : State) : (s.nextDraw).mem = s.mem := rfl
@[simp] theorem State.nextDraw_fb (s : State) : (s.nextDraw).fb = s.fb := rfl
@[simp] theorem State.nextDraw_params (s : State) : (s.nextDraw).params = s.params := rfl
@[simp] theorem State.nextDraw_answers (s : State) : (s.nextDraw).answers = s.answers.tail := rfl
@[simp] theorem State.nextDraw_draws (s : State) : (s.nextDraw).draws = s.draws + 1 := rfl
@[simp] theorem State.nextDraw_status (s : State) : (s.nextDraw).status = s.status := rfl

/-! ## tickTimers -/

@[simp] theorem State.tickTimers_v (s : State) : (s.tickTimers).v = s.v := rfl
@[simp] theorem State.tickTimers_i (s : State) : (s.tickTimers).i = s.i := rfl
@[simp] theorem State.tickTimers_pc (s : State) : (s.tickTimers).pc = s.pc := rfl
@[simp] theorem State.tickTimers_stack (s : State) : (s.tickTimers).stack = s.stack := rfl
@[simp] theorem State.tickTimers_dt (s : State) : (s.tickTimers).dt = tickByte s.dt := rfl
@[simp] theorem State.tickTimers_st (s : State) : (s.tickTimers).st = tickByte s.st := rfl
@[simp] theorem State.tickTimers_mem (s : State) : (s.tickTimers).mem = s.mem := rfl
@[simp] theorem State.tickTimers_fb (s : State) : (s.tickTimers).fb = s.fb := rfl
@[simp] theorem State.tickTimers_params (s : State) : (s.tickTimers).params = s.params := rfl
@[simp] theorem State.tickTimers_answers (s : State) : (s.tickTimers).answers = s.answers := rfl
@[simp] theorem State.tickTimers_draws (s : State) : (s.tickTimers).draws = s.draws := rfl
@[simp] theorem State.tickTimers_status (s : State) : (s.tickTimers).status = s.status := rfl

/-! ## storeFetchWord -/

@[simp] theorem State.storeFetchWord_v (s : State) (op : Word) : (s.storeFetchWord op).v = s.v := rfl
@[simp] theorem State.storeFetchWord_i (s : State) (op : Word) : (s.storeFetchWord op).i = s.i := rfl
@[simp] theorem State.storeFetchWord_pc (s : State) (op : Word) : (s.storeFetchWord op).pc = s.fetchSlot := rfl
@[simp] theorem State.storeFetchWord_stack (s : State) (op : Word) : (s.storeFetchWord op).stack = s.stack := rfl
@[simp] theorem State.storeFetchWord_dt (s : State) (op : Word) : (s.storeFetchWord op).dt = s.dt := rfl
@[simp] theorem State.storeFetchWord_st (s : State) (op : Word) : (s.storeFetchWord op).st = s.st := rfl
@[simp] theorem State.storeFetchWord_mem (s : State) (op : Word) : (s.storeFetchWord op).mem = s.mem.writeBlock s.fetchSlot.toNat [highByte op, lowByte op] := rfl
@[simp] theorem State.storeFetchWord_fb (s : State) (op : Word) : (s.storeFetchWord op).fb = s.fb := rfl
@[simp] theorem State.storeFetchWord_params (s : State) (op : Word) : (s.storeFetchWord op).params = s.params := rfl
@[simp] theorem State.storeFetchWord_answers (s : State) (op : Word) : (s.storeFetchWord op).answers = s.answers := rfl
@[simp] theorem State.storeFetchWord_draws (s : State) (op : Word) : (s.storeFetchWord op).draws = s.draws := rfl
@[simp] theorem State.storeFetchWord_status (s : State) (op : Word) : (s.storeFetchWord op).status = s.status := rfl

/-! ## setRegs -/

@[simp] theorem State.setRegs_i (s : State) (start : Nat) (bs : List Byte) :
    (s.setRegs start bs).i = s.i := by
  induction bs generalizing s start with
  | nil => rfl
  | cons b bs ih => simp [State.setRegs, ih]

@[simp] theorem State.setRegs_pc (s : State) (start : Nat) (bs : List Byte) :
    (s.setRegs start bs).pc = s.pc := by
  induction bs generalizing s start with
  | nil => rfl
  | cons b bs ih => simp [State.setRegs, ih]

@[simp] theorem State.setRegs_stack (s : State) (start : Nat) (bs : List Byte) :
    (s.setRegs start bs).stack = s.stack := by
  induction bs generalizing s start with
  | nil => rfl
  | cons b bs ih => simp [State.setRegs, ih]

@[simp] theorem State.setRegs_dt (s : State) (start : Nat) (bs : List Byte) :
    (s.setRegs start bs).dt = s.dt := by
  induction bs generalizing s start with
  | nil => rfl
  | cons b bs ih => simp [State.setRegs, ih]

@[simp] theorem State.setRegs_st (s : State) (start : Nat) (bs : List Byte) :
    (s.setRegs start bs).st = s.st := by
  induction bs generalizing s start with
  | nil => rfl
  | cons b bs ih => simp [State.setRegs, ih]

@[simp] theorem State.setRegs_mem (s : State) (start : Nat) (bs : List Byte) :
    (s.setRegs start bs).mem = s.mem := by
  induction bs generalizing s start with
  | nil => rfl
  | cons b bs ih => simp [State.setRegs, ih]

@[simp] theorem State.setRegs_fb (s : State) (start : Nat) (bs : List Byte) :
    (s.setRegs start bs).fb = s.fb := by
  induction bs generalizing s start with
  | nil => rfl
  | cons b bs ih => simp [State.setRegs, ih]

@[simp] theorem State.setRegs_params (s : State) (start : Nat) (bs : List Byte) :
    (s.setRegs start bs).params = s.params := by
  induction bs generalizing s start with
  | nil => rfl
  | cons b bs ih => simp [State.setRegs, ih]

@[simp] theorem State.setRegs_answers (s : State) (start : Nat) (bs : List Byte) :
    (s.setRegs start bs).answers = s.answers := by
  induction bs generalizing s start with
  | nil => rfl
  | cons b bs ih => simp [State.setRegs, ih]

@[simp] theorem State.setRegs_draws (s : State) (start : Nat) (bs : List Byte) :
    (s.setRegs start bs).draws = s.draws := by
  induction bs generalizing s start with
  | nil => rfl
  | cons b bs ih => simp [State.setRegs, ih]

@[simp] theorem State.setRegs_status (s : State) (start : Nat) (bs : List Byte) :
    (s.setRegs start bs).status = s.status := by
  induction bs generalizing s start with
  | nil => rfl
  | cons b bs ih => simp [State.setRegs, ih]

/-! ## offer -/

@[simp] theorem State.offer_v (s : State) (a : Option Answers) : (s.offer a).v = s.v := by cases a <;> rfl
@[simp] theorem State.offer_i (s : State) (a : Option Answers) : (s.offer a).i = s.i := by cases a <;> rfl
@[simp] theorem State.offer_pc (s : State) (a : Option Answers) : (s.offer a).pc = s.pc := by cases a <;> rfl
@[simp] theorem State.offer_stack (s : State) (a : Option Answers) : (s.offer a).stack = s.stack := by cases a <;> rfl
@[simp] theorem State.offer_dt (s : State) (a : Option Answers) : (s.offer a).dt = s.dt := by cases a <;> rfl
@[simp] theorem State.offer_st (s : State) (a : Option Answers) : (s.offer a).st = s.st := by cases a <;> rfl
@[simp] theorem State.offer_mem (s : State) (a : Option Answers) : (s.offer a).mem = s.mem := by cases a <;> rfl
@[simp] theorem State.offer_fb (s : State) (a : Option Answers) : (s.offer a).fb = s.fb := by cases a <;> rfl
@[simp] theorem State.offer_params (s : State) (a : Option Answers) : (s.offer a).params = s.params := by cases a <;> rfl
@[simp] theorem State.offer_draws (s : State) (a : Option Answers) : (s.offer a).draws = s.draws := by cases a <;> rfl
@[simp] theorem State.offer_status (s : State) (a : Option Answers) : (s.offer a).status = s.status := by cases a <;> rfl

/-! ## create -/

@[simp] theorem State.create_v (p : Params) : (State.create p).v = Vector.replicate 16 0#8 := rfl
@[simp] theorem State.create_i (p : Params) : (State.create p).i = 0#16 := rfl
@[simp] theorem State.create_pc (p : Params) : (State.create p).pc = 0x200#16 := rfl
@[simp] theorem State.create_stack (p : Params) : (State.create p).stack = [] := rfl
@[simp] theorem State.create_dt (p : Params) : (State.create p).dt = 0#8 := rfl
@[simp] theorem State.create_st (p : Params) : (State.create p).st = 0#8 := rfl
@[simp] theorem State.create_mem (p : Params) : (State.create p).mem = [] := rfl
@[simp] theorem State.create_fb (p : Params) : (State.create p).fb = Framebuffer.blank := rfl
@[simp] theorem State.create_params (p : Params) : (State.create p).params = p := rfl
@[simp] theorem State.create_answers (p : Params) : (State.create p).answers = [] := rfl
@[simp] theorem State.create_draws (p : Params) : (State.create p).draws = 0 := rfl
@[simp] theorem State.create_status (p : Params) : (State.create p).status = .executed := rfl

@[simp] theorem State.reset_params : State.reset.params = Params.default := rfl

/-! ## recreated -/

@[simp] theorem State.recreated_v (s : State) : s.recreated.v = Vector.replicate 16 0#8 := rfl
@[simp] theorem State.recreated_i (s : State) : s.recreated.i = 0#16 := rfl
@[simp] theorem State.recreated_pc (s : State) : s.recreated.pc = 0x200#16 := rfl
@[simp] theorem State.recreated_stack (s : State) : s.recreated.stack = [] := rfl
@[simp] theorem State.recreated_dt (s : State) : s.recreated.dt = 0#8 := rfl
@[simp] theorem State.recreated_st (s : State) : s.recreated.st = 0#8 := rfl
@[simp] theorem State.recreated_mem (s : State) : s.recreated.mem = [] := rfl
@[simp] theorem State.recreated_fb (s : State) : s.recreated.fb = Framebuffer.blank := rfl
@[simp] theorem State.recreated_params (s : State) : s.recreated.params = s.params := rfl
@[simp] theorem State.recreated_answers (s : State) : s.recreated.answers = s.answers := rfl
@[simp] theorem State.recreated_draws (s : State) : s.recreated.draws = s.draws := rfl
@[simp] theorem State.recreated_status (s : State) : s.recreated.status = .executed := rfl

end Sys2Proof.Machine
end

