-- ==== Sys2Proof/Laws/Framebuffer.lean ====
section
/-! SUPPORT. The laws of the framebuffer: what a pixel is after a toggle, after one sprite bit and after clearing. -/

namespace Sys2Proof.Machine

/-- Two framebuffers with equal pixels are equal. -/
theorem Framebuffer.ext {f g : Framebuffer} (h : ∀ px py, f.pixel px py = g.pixel px py) : f = g := by
  apply Vector.ext
  intro x hx
  apply Vector.ext
  intro y hy
  exact h ⟨x, hx⟩ ⟨y, hy⟩

/-- R270: a cleared screen. -/
@[simp] theorem Framebuffer.pixel_blank (px : Fin 64) (py : Fin 32) : Framebuffer.blank.pixel px py = false := by
  simp [Framebuffer.pixel, Framebuffer.blank, Vector.get]

/-- R271: a toggle inverts its pixel and leaves every other one. -/
theorem Framebuffer.pixel_toggle (f : Framebuffer) (px qx : Fin 64) (py qy : Fin 32) :
    (f.toggle px py).pixel qx qy = if px = qx ∧ py = qy then !f.pixel px py else f.pixel qx qy := by
  have hx : (f.toggle px py).get qx = if px.val = qx.val then (f.get px).set py.val (!f.pixel px py) else f.get qx :=
    Vector.getElem_set px.isLt qx.isLt
  rw [Framebuffer.pixel, hx]
  by_cases h : px = qx
  · subst h
    rw [if_pos rfl]
    have hy : ((f.get px).set py.val (!f.pixel px py)).get qy =
        if py.val = qy.val then !f.pixel px py else (f.get px).get qy := Vector.getElem_set py.isLt qy.isLt
    rw [hy]
    by_cases h' : py = qy
    · subst h'; simp
    · rw [if_neg (fun e => h' (Fin.ext e)), if_neg (fun e => h' e.2)]; rfl
  · rw [if_neg (fun e => h (Fin.ext e)), if_neg (fun e => h e.1)]; rfl

@[simp] theorem val_wrapX (x : Nat) : (wrapX x).val = x % 64 := rfl
@[simp] theorem val_wrapY (y : Nat) : (wrapY y).val = y % 32 := rfl

/-- A sprite bit of 0 leaves everything (R271). -/
theorem drawBit_of_clear {x y : Nat} {byte : Byte} {col : Nat} (h : byte.getLsbD (7 - col) = false)
    (acc : Framebuffer × Bool) : drawBit x y byte acc col = acc := by simp [drawBit, h]

/-- A sprite bit of 1 toggles its pixel, and collides if the pixel was 1 (R271, R273). -/
theorem drawBit_of_set {x y : Nat} {byte : Byte} {col : Nat} (h : byte.getLsbD (7 - col) = true)
    (acc : Framebuffer × Bool) :
    drawBit x y byte acc col =
      (acc.1.toggle (wrapX (x + col)) (wrapY y), acc.2 || acc.1.pixel (wrapX (x + col)) (wrapY y)) := by
  simp [drawBit, h]

end Sys2Proof.Machine
end

