-- ==== Sys2Proof/Laws/Memory.lean ====
section
/-! SUPPORT. The laws of memory: what a read gives after a write, and that every operation keeps the form. -/

namespace Sys2Proof.Machine

/-! ## Reading -/

@[simp] theorem Memory.read_nil (a : Nat) : Memory.read [] a = Config.unlistedByte := rfl

/-- An address below every entry is unlisted. -/
theorem Memory.read_of_lt (m : Memory) (a : Nat) (h : ∀ c ∈ m, a < c.1) : m.read a = Config.unlistedByte := by
  induction m with
  | nil => rfl
  | cons c rest ih =>
    have hc := h c List.mem_cons_self
    rw [Memory.read, if_neg (by omega), ih fun d hd => h d (List.mem_cons_of_mem _ hd)]

/-- An entry in front decides its own address, also where it is left out because it is the unlisted byte. -/
theorem Memory.read_cons (m : Memory) (a : Nat) (b : Byte) (x : Nat) (h : ∀ c ∈ m, a < c.1) :
    (Memory.cons a b m).read x = if a = x then b else m.read x := by
  unfold Memory.cons
  split
  · split
    · subst_vars; exact Memory.read_of_lt m _ h
    · rfl
  · rfl

/-- The entries after the first lie at later addresses. -/
theorem Memory.lt_of_pairwise {k : Nat} {c : Byte} {rest : Memory}
    (h : List.Pairwise (fun c d : Host.Cell => c.1 < d.1) ((k, c) :: rest)) : ∀ d ∈ rest, k < d.1 :=
  fun d hd => (List.pairwise_cons.mp h).1 d hd

/-- R67: a read returns the last value written to that byte, and a write leaves every other byte alone. -/
theorem Memory.read_write (m : Memory) (a : Nat) (b : Byte) (x : Nat)
    (h : List.Pairwise (fun c d : Host.Cell => c.1 < d.1) m) :
    (m.write a b).read x = if a = x then b else m.read x := by
  induction m with
  | nil => exact Memory.read_cons [] a b x (by simp)
  | cons e rest ih =>
    obtain ⟨k, c⟩ := e
    have hrest := Memory.lt_of_pairwise h
    unfold Memory.write
    split
    · refine Memory.read_cons _ a b x fun d hd => ?_
      rcases List.mem_cons.mp hd with rfl | hd
      · assumption
      · have := hrest d hd; omega
    · split
      · subst_vars
        rw [Memory.read_cons _ _ b x hrest]
        by_cases hx : k = x <;> simp [Memory.read, hx]
      · simp only [Memory.read]
        rw [ih (List.pairwise_cons.mp h).2]
        by_cases hk : k = x
        · subst hk; rw [if_pos rfl, if_pos rfl, if_neg (by omega)]
        · rw [if_neg hk, if_neg hk]

/-! ## The form -/

theorem Memory.wf_nil : Memory.wf [] := by simp [Memory.wf]

/-- Every entry after a write is the written one or an old one. -/
theorem Memory.mem_write {m : Memory} {a : Nat} {b : Byte} {d : Host.Cell} (h : d ∈ m.write a b) :
    d ∈ m ∨ (d = (a, b) ∧ b ≠ Config.unlistedByte) := by
  induction m with
  | nil =>
    unfold Memory.write Memory.cons at h
    split at h <;> simp_all
  | cons e rest ih =>
    obtain ⟨k, c⟩ := e
    unfold Memory.write Memory.cons at h
    split at h
    · split at h
      · exact .inl h
      · rcases List.mem_cons.mp h with rfl | h
        · exact .inr ⟨rfl, ‹_›⟩
        · exact .inl h
    · split at h
      · split at h
        · exact .inl (List.mem_cons_of_mem _ h)
        · rcases List.mem_cons.mp h with rfl | h
          · exact .inr ⟨rfl, ‹_›⟩
          · exact .inl (List.mem_cons_of_mem _ h)
      · rcases List.mem_cons.mp h with rfl | h
        · exact .inl List.mem_cons_self
        · exact (ih h).imp (List.mem_cons_of_mem _) id

/-- A write keeps the addresses strictly rising. -/
theorem Memory.pairwise_write (m : Memory) (a : Nat) (b : Byte)
    (h : List.Pairwise (fun c d : Host.Cell => c.1 < d.1) m) :
    List.Pairwise (fun c d : Host.Cell => c.1 < d.1) (m.write a b) := by
  induction m with
  | nil =>
    unfold Memory.write Memory.cons
    split <;> simp
  | cons e rest ih =>
    obtain ⟨k, c⟩ := e
    have hrest := Memory.lt_of_pairwise h
    have htail := (List.pairwise_cons.mp h).2
    unfold Memory.write Memory.cons
    split
    · split
      · exact h
      · refine List.pairwise_cons.mpr ⟨fun d hd => ?_, h⟩
        rcases List.mem_cons.mp hd with rfl | hd
        · assumption
        · have := hrest d hd; show a < d.1; omega
    · split
      · subst_vars
        split
        · exact htail
        · exact List.pairwise_cons.mpr ⟨hrest, htail⟩
      · refine List.pairwise_cons.mpr ⟨fun d hd => ?_, ih htail⟩
        rcases Memory.mem_write hd with hd | ⟨rfl, -⟩
        · exact hrest d hd
        · show k < a; omega

/-- A write inside the address space keeps the form. -/
theorem Memory.wf_write {m : Memory} (h : m.wf) {a : Nat} (b : Byte) (ha : a < Config.memSize) :
    (m.write a b).wf := by
  refine ⟨Memory.pairwise_write m a b h.1, fun d hd => ?_⟩
  rcases Memory.mem_write hd with hd | ⟨rfl, hb⟩
  · exact h.2 d hd
  · exact ⟨hb, ha⟩

/-- A block write inside the address space keeps the form. -/
theorem Memory.wf_writeBlock {m : Memory} (h : m.wf) (a : Nat) (bs : List Byte)
    (ha : a + bs.length ≤ Config.memSize) : (m.writeBlock a bs).wf := by
  induction bs generalizing m a with
  | nil => exact h
  | cons b bs ih =>
    simp only [List.length_cons] at ha
    exact ih (Memory.wf_write h b (by omega)) (a + 1) (by omega)

/-- A block write keeps the addresses strictly rising. -/
theorem Memory.pairwise_writeBlock (m : Memory) (a : Nat) (bs : List Byte)
    (h : List.Pairwise (fun c d : Host.Cell => c.1 < d.1) m) :
    List.Pairwise (fun c d : Host.Cell => c.1 < d.1) (m.writeBlock a bs) := by
  induction bs generalizing m a with
  | nil => exact h
  | cons b bs ih => exact ih _ _ (Memory.pairwise_write m a b h)

/-! ## Blocks -/

@[simp] theorem Memory.length_readBlock (m : Memory) (a n : Nat) : (m.readBlock a n).length = n := by
  induction n generalizing a with
  | zero => rfl
  | succ n ih => simp [Memory.readBlock, ih]

/-- The j-th byte of a block read is the byte at a + j (R242). -/
@[simp] theorem Memory.getElem_readBlock (m : Memory) (a n j : Nat) (h : j < (m.readBlock a n).length) :
    (m.readBlock a n)[j] = m.read (a + j) := by
  induction n generalizing a j with
  | zero => simp at h
  | succ n ih =>
    cases j with
    | zero => rfl
    | succ j =>
      simp only [Memory.readBlock, List.getElem_cons_succ]
      rw [ih]
      congr 1
      omega

/-- What a block write leaves at an address: the block's byte inside it, the old byte outside (R242). -/
theorem Memory.read_writeBlock (m : Memory) (a : Nat) (bs : List Byte) (x : Nat)
    (h : List.Pairwise (fun c d : Host.Cell => c.1 < d.1) m) :
    (m.writeBlock a bs).read x = if a ≤ x then (bs[x - a]?).getD (m.read x) else m.read x := by
  induction bs generalizing m a with
  | nil => simp [Memory.writeBlock]
  | cons b bs ih =>
    rw [Memory.writeBlock, ih _ _ (Memory.pairwise_write m a b h), Memory.read_write m a b x h]
    by_cases hax : a = x
    · subst hax
      rw [if_neg (by omega), if_pos rfl, if_pos (Nat.le_refl a)]
      simp
    · rw [if_neg hax]
      by_cases hle : a + 1 ≤ x
      · rw [if_pos hle, if_pos (by omega)]
        have : x - a = (x - (a + 1)) + 1 := by omega
        rw [this]
        simp
      · rw [if_neg hle, if_neg (by omega)]

/-- The bounds check, said with naturals (R62). -/
theorem outOfBounds_iff (a n : Nat) : outOfBounds a n = true ↔ 0 < n ∧ 4096 < a + n := by
  unfold outOfBounds Config.memSize
  rw [decide_eq_true_iff]
  omega

/-- An access of n ≥ 1 bytes passes the check iff it ends at or below 4095 (R62). -/
theorem outOfBounds_eq_false_iff (a n : Nat) : outOfBounds a n = false ↔ (n = 0 ∨ a + n ≤ 4096) := by
  rw [← Bool.not_eq_true, outOfBounds_iff]
  omega

end Sys2Proof.Machine
end

