-- ==== Sys2Proof/Laws/Registers.lean ====
section
/-! SUPPORT. The laws of the register file: what a read gives after a write, and after the block load. -/

namespace Sys2Proof.Machine

/-- V[x] as an element of the register file. -/
theorem State.reg_eq (s : State) (x : RegIdx) : s.reg x = s.v[x.toNat]'x.isLt := rfl

/-- R13: a read of the written register gives the value, a read of another one is as before. -/
@[simp] theorem State.reg_setReg (s : State) (x : RegIdx) (b : Byte) (z : RegIdx) :
    (s.setReg x b).reg z = if x = z then b else s.reg z := by
  simp only [State.reg_eq, State.setReg_v, Vector.getElem_set, ← BitVec.toNat_inj]

@[simp] theorem State.reg_setVF (s : State) (b : Byte) (z : RegIdx) :
    (s.setVF b).reg z = if regF = z then b else s.reg z := State.reg_setReg s regF b z

/-- R140, R214: the result write comes last. -/
@[simp] theorem State.reg_setFlagThenReg (s : State) (f : Byte) (d : RegIdx) (b : Byte) (z : RegIdx) :
    (s.setFlagThenReg f d b).reg z = if d = z then b else if regF = z then f else s.reg z := by
  simp [State.setFlagThenReg]

/-- Two states with equal register files read alike. -/
theorem State.reg_congr {s t : State} (h : s.v = t.v) (x : RegIdx) : s.reg x = t.reg x := by
  simp only [State.reg_eq, h]

@[simp] theorem State.reg_retire (s : State) (t : Word) (x : RegIdx) : (s.retire t).reg x = s.reg x := rfl
@[simp] theorem State.reg_advance (s : State) (x : RegIdx) : s.advance.reg x = s.reg x := rfl
@[simp] theorem State.reg_skipIf (s : State) (c : Bool) (x : RegIdx) : (s.skipIf c).reg x = s.reg x := rfl
@[simp] theorem State.reg_setMem (s : State) (m : Memory) (x : RegIdx) : (s.setMem m).reg x = s.reg x := rfl
@[simp] theorem State.reg_setFB (s : State) (f : Framebuffer) (x : RegIdx) : (s.setFB f).reg x = s.reg x := rfl
@[simp] theorem State.reg_nextDraw (s : State) (x : RegIdx) : s.nextDraw.reg x = s.reg x := rfl

/-- The registers as one table: equal reads make equal files. -/
theorem State.v_ext {s t : State} (h : ∀ x, s.reg x = t.reg x) : s.v = t.v := by
  apply Vector.ext
  intro j hj
  have hn : (BitVec.ofNat 4 j).toNat = j := (BitVec.toNat_ofNat j 4).trans (Nat.mod_eq_of_lt hj)
  have := h (BitVec.ofNat 4 j)
  simpa only [State.reg_eq, hn] using this

/-- R247: the block load puts byte j of the list into register start + j and leaves the others. -/
theorem State.reg_setRegs (s : State) (start : Nat) (bs : List Byte) (z : RegIdx) (h : start + bs.length ≤ 16) :
    (s.setRegs start bs).reg z =
      if start ≤ z.toNat then (bs[z.toNat - start]?).getD (s.reg z) else s.reg z := by
  induction bs generalizing s start with
  | nil => simp [State.setRegs]
  | cons b bs ih =>
    simp only [List.length_cons] at h
    have hs : (BitVec.ofNat 4 start).toNat = start := by
      rw [BitVec.toNat_ofNat]; exact Nat.mod_eq_of_lt (by omega)
    rw [State.setRegs, ih _ _ (by omega), State.reg_setReg]
    by_cases hz : BitVec.ofNat 4 start = z
    · subst hz
      simp [hs]
    · have hne : start ≠ z.toNat := fun e => hz (BitVec.eq_of_toNat_eq (hs.trans e))
      rw [if_neg hz]
      by_cases hle : start + 1 ≤ z.toNat
      · rw [if_pos hle, if_pos (by omega)]
        have : z.toNat - start = (z.toNat - (start + 1)) + 1 := by omega
        rw [this]
        simp
      · rw [if_neg hle, if_neg (by omega)]

/-- The block load writes nothing but the register file. -/
theorem State.setRegs_eq (s : State) (start : Nat) (bs : List Byte) :
    s.setRegs start bs = { s with v := (s.setRegs start bs).v } := by
  induction bs generalizing s start with
  | nil => rfl
  | cons b bs ih => rw [State.setRegs, ih]; rfl

@[simp] theorem State.length_regsUpTo (s : State) (x : RegIdx) : (s.regsUpTo x).length = x.toNat + 1 := by
  simp [State.regsUpTo]

/-- R246: the j-th byte stored is V[j]. -/
@[simp] theorem State.getElem_regsUpTo (s : State) (x : RegIdx) (j : Nat) (h : j < (s.regsUpTo x).length) :
    (s.regsUpTo x)[j] = s.reg (BitVec.ofNat 4 j) := by
  simp [State.regsUpTo]

end Sys2Proof.Machine
end

