-- ==== Sys2Proof/Laws/Ops.lean ====
section
/-! SUPPORT. One lemma per shared operation that says everything it can do: the bounds check, the call stack, fetch and
decode, the step, the transactions, the exact arithmetic. -/

namespace Sys2Proof.Machine

/-! ## Raising a fault and the bounds check -/

@[simp] theorem raise_ne_next (f : Fault) (t : State) : raise f ≠ .next t := by simp [raise]

/-- The check passes. -/
theorem withBounds_of_le {a n : Nat} (h : n = 0 ∨ a + n ≤ 4096) (r : State) : withBounds a n r = .next r := by
  simp [withBounds, (outOfBounds_eq_false_iff a n).mpr h]

/-- The check fails, with the start address and the byte count (R62). -/
theorem withBounds_of_gt {a n : Nat} (hn : 0 < n) (h : 4096 < a + n) (r : State) :
    withBounds a n r = .fault (.memoryOutOfBounds a n) := by
  simp [withBounds, (outOfBounds_iff a n).mpr ⟨hn, h⟩, raise]

theorem withBounds_next {a n : Nat} {r t : State} (h : withBounds a n r = .next t) :
    (n = 0 ∨ a + n ≤ 4096) ∧ t = r := by
  unfold withBounds at h
  split at h
  · exact absurd h (raise_ne_next _ _)
  · injection h with h
    rename_i hb
    exact ⟨(outOfBounds_eq_false_iff a n).mp (Bool.eq_false_iff.mpr hb), h.symm⟩

theorem withBounds_fault {a n : Nat} {r : State} {f : Fault} (h : withBounds a n r = .fault f) :
    0 < n ∧ 4096 < a + n ∧ f = .memoryOutOfBounds a n := by
  unfold withBounds at h
  split at h
  · injection h with h
    have := (outOfBounds_iff a n).mp ‹_›
    exact ⟨this.1, this.2, h.symm⟩
  · cases h

@[simp] theorem withBounds_ne_refused (a n : Nat) (r : State) (q : Refusal) : withBounds a n r ≠ .refused q := by
  unfold withBounds raise
  split <;> simp

/-! ## The call stack -/

/-- Push succeeds exactly below the depth bound, and appends (R15). -/
theorem State.push?_eq_some_iff (s t : State) (a : Word) :
    s.push? a = some t ↔ s.stack.length < s.params.stackDepth ∧ t = { s with stack := s.stack ++ [a] } := by
  unfold State.push?
  split
  · simp; omega
  · simp only [Option.some.injEq]
    exact ⟨fun h => ⟨by omega, h.symm⟩, fun h => h.2.symm⟩

theorem State.push?_eq_none_iff (s : State) (a : Word) :
    s.push? a = none ↔ s.params.stackDepth ≤ s.stack.length := by
  unfold State.push?
  split <;> simp_all

/-- Pop succeeds exactly on a stack with a top entry, and removes it (R15). -/
theorem State.pop?_eq_some_iff (s t : State) (a : Word) :
    s.pop? = some (a, t) ↔ ∃ rest, s.stack = rest ++ [a] ∧ t = { s with stack := rest } := by
  unfold State.pop?
  cases h : s.stack.getLast? with
  | none =>
    rw [List.getLast?_eq_none_iff] at h
    simp [h]
  | some b =>
    obtain ⟨rest, hr⟩ := List.getLast?_eq_some_iff.mp h
    simp only [hr, Option.some.injEq, Prod.mk.injEq]
    constructor
    · rintro ⟨rfl, rfl⟩
      exact ⟨rest, rfl, by simp⟩
    · rintro ⟨rest', he, rfl⟩
      obtain ⟨rfl, hb⟩ := List.append_inj' he rfl
      exact ⟨by simpa using hb, by simp⟩

theorem State.pop?_eq_none_iff (s : State) : s.pop? = none ↔ s.stack = [] := by
  unfold State.pop?
  cases h : s.stack.getLast? with
  | none => simpa using List.getLast?_eq_none_iff.mp h
  | some b =>
    simp only [reduceCtorEq, false_iff]
    rintro he
    simp [he] at h

/-! ## Fetch and step -/

@[simp] theorem State.fetchBytes_eq (s : State) :
    s.fetchBytes = [s.mem.read s.pc.toNat, s.mem.read (s.pc.toNat + 1)] := rfl

/-- Past the last fetchable pc the fetch faults (R133). -/
theorem State.fetchInstr_of_gt {s : State} (h : 4094 < s.pc.toNat) :
    s.fetchInstr = .error (.memoryOutOfBounds s.pc.toNat 2) := by
  simp [State.fetchInstr, (outOfBounds_iff s.pc.toNat 2).mpr ⟨by omega, by omega⟩]

/-- At a fetchable pc, fetching is decoding the word at the pc (R132, R134, R135). -/
theorem State.fetchInstr_of_fetchable {s : State} (h : s.fetchable) :
    s.fetchInstr =
      match decode s.params.strictDecode s.wordAtPc with
      | .ok i => .ok i
      | .error _ => .error (.unsupportedOpcode s.wordAtPc) := by
  have hb : outOfBounds s.pc.toNat 2 = false := (outOfBounds_eq_false_iff _ _).mpr (.inr (by omega))
  rw [State.fetchInstr, if_neg (by simp [hb]), State.fetchBytes_eq, decodeBytes]
  simp only [State.wordAtPc]
  cases hd : decode s.params.strictDecode (wordOfBytes (s.mem.read s.pc.toNat) (s.mem.read (s.pc.toNat + 1))) with
  | ok i => rfl
  | error e =>
    obtain ⟨-, rfl⟩ := decode_error hd
    rfl

/-- What a step answers next: the instruction's next state, with the answers used up (R143). -/
theorem step_next {s t : State} (h : step s = .next t) :
    ∃ i u, s.fetchInstr = .ok i ∧ exec i s = .next u ∧ t = u.nextDraw := by
  unfold step at h
  split at h
  · cases h
  · rename_i i hi
    cases hx : exec i s with
    | next u => rw [hx] at h; exact ⟨i, u, hi, hx, by injection h with h; exact h.symm⟩
    | fault f => rw [hx] at h; cases h
    | refused r => rw [hx] at h; cases h

/-- Where a step's fault comes from: the fetch, or the instruction (R318). -/
theorem step_fault {s : State} {f : Fault} (h : step s = .fault f) :
    s.fetchInstr = .error f ∨ ∃ i, s.fetchInstr = .ok i ∧ exec i s = .fault f := by
  unfold step at h
  split at h
  · rename_i g hg
    injection h with h
    exact .inl (h ▸ hg)
  · rename_i i hi
    cases hx : exec i s with
    | next u => rw [hx] at h; cases h
    | fault g => rw [hx] at h; injection h with h; exact .inr ⟨i, hi, h ▸ hx⟩
    | refused r => rw [hx] at h; cases h

/-- A fetched instruction lies at a fetchable pc and is what the word there decodes to. -/
theorem State.fetchInstr_ok {s : State} {i : Instr} (h : s.fetchInstr = .ok i) :
    s.fetchable ∧ decode s.params.strictDecode s.wordAtPc = .ok i := by
  have hf : s.fetchable := by
    rw [State.fetchable]
    rcases Nat.lt_or_ge 4094 s.pc.toNat with hgt | hle
    · rw [State.fetchInstr_of_gt hgt] at h; cases h
    · exact hle
  rw [State.fetchInstr_of_fetchable hf] at h
  split at h
  · rename_i j hj; injection h with h; exact ⟨hf, h ▸ hj⟩
  · cases h

/-! ## The exact arithmetic -/

@[simp] theorem toNat_addBytes (a b : Byte) : (addBytes a b).toNat = (a.toNat + b.toNat) % 256 := by
  simp [addBytes]

@[simp] theorem toNat_subBytes (a b : Byte) : (subBytes a b).toNat = (a.toNat + 256 - b.toNat) % 256 := by
  simp [subBytes]

@[simp] theorem toNat_shiftRight1 (a : Byte) : (shiftRight1 a).toNat = a.toNat / 2 := by
  have := a.isLt
  rw [shiftRight1, BitVec.toNat_ofNat]
  exact Nat.mod_eq_of_lt (by omega)

@[simp] theorem toNat_shiftLeft1 (a : Byte) : (shiftLeft1 a).toNat = a.toNat * 2 % 256 := by simp [shiftLeft1]

@[simp] theorem toNat_addrWord (nnn : Addr12) : (addrWord nnn).toNat = nnn.toNat := by
  have := nnn.isLt
  rw [addrWord, BitVec.toNat_ofNat]
  exact Nat.mod_eq_of_lt (by omega)

@[simp] theorem toNat_addIndexWord (w : Word) (a : Byte) :
    (addIndexWord w a).toNat = (w.toNat + a.toNat) % 65536 := by
  simp [addIndexWord]

/-- R36: the sum of JP_OFFSET is at most 0x10FE, so it is not cut off. -/
@[simp] theorem toNat_jumpOffset (nnn : Addr12) (a : Byte) : (jumpOffset nnn a).toNat = nnn.toNat + a.toNat := by
  have := nnn.isLt
  have := a.isLt
  rw [jumpOffset, BitVec.toNat_ofNat]
  exact Nat.mod_eq_of_lt (by omega)

@[simp] theorem toNat_glyphAddr (a : Byte) : (glyphAddr a).toNat = a.toNat * 5 := by
  have := a.isLt
  rw [glyphAddr, BitVec.toNat_ofNat, Config.fontBase, Config.fontStride, Nat.zero_add]
  exact Nat.mod_eq_of_lt (by omega)

@[simp] theorem toNat_tickByte (d : Byte) : (tickByte d).toNat = d.toNat - 1 := by
  have := d.isLt
  unfold tickByte
  split
  · rw [BitVec.toNat_ofNat]; exact Nat.mod_eq_of_lt (by omega)
  · omega

theorem toNat_flagByte (c : Bool) : (flagByte c).toNat = if c then 1 else 0 := by cases c <;> rfl

theorem flagByte_eq_one_iff (c : Bool) : flagByte c = 1#8 ↔ c = true := by cases c <;> simp [flagByte]

/-- R208: the flag of SHR as a remainder. -/
theorem toNat_lowBitFlag (a : Byte) : (lowBitFlag a).toNat = a.toNat % 2 := by revert a; decide

/-- R210: the flag of SHL as a quotient. -/
theorem toNat_highBitFlag (a : Byte) : (highBitFlag a).toNat = a.toNat / 128 := by revert a; decide

/-- R95: zero-extension as a concatenation. -/
theorem addrWord_eq (nnn : Addr12) : addrWord nnn = 0x0#4 ++ nnn := by
  apply BitVec.eq_of_toNat_eq
  rw [toNat_addrWord]
  show _ = ((0x0#4 : Nibble) ++ nnn : BitVec (4 + 12)).toNat
  rw [toNat_concat]
  simp

/-- R36: at a fetchable pc the address of the next instruction is not cut off. -/
theorem State.toNat_npc {s : State} (h : s.fetchable) : (s.pc + 2#16).toNat = s.pc.toNat + 2 := by
  rw [State.fetchable] at h
  rw [BitVec.toNat_add]
  exact Nat.mod_eq_of_lt (by have : (2#16).toNat = 2 := rfl; omega)

/-- R36: at a fetchable pc the target of a skip is not cut off. -/
theorem State.toNat_skip {s : State} (h : s.fetchable) : (s.pc + 4#16).toNat = s.pc.toNat + 4 := by
  rw [State.fetchable] at h
  rw [BitVec.toNat_add]
  exact Nat.mod_eq_of_lt (by have : (4#16).toNat = 4 := rfl; omega)

/-! ## Transactions -/

@[simp] theorem settle_next (before t : State) (g : State → Report) : settle before g (.next t) = (t, g t) := rfl
@[simp] theorem settle_fault (before : State) (g : State → Report) (f : Fault) :
    settle before g (.fault f) = (before, .err f) := rfl
@[simp] theorem settle_refused (before : State) (g : State → Report) (r : Refusal) :
    settle before g (.refused r) = (before, .refused r) := rfl

/-- A legal depth is let through (R9). -/
theorem requireDepth_of_ok {p : Params} (h : p.ok) (t : State) : requireDepth p t = .next t :=
  if_neg (Nat.ne_of_gt h)

/-- Depth 0 is refused (93_implementation_defined.md §1). -/
theorem requireDepth_of_zero {p : Params} (h : p.stackDepth = 0) (t : State) :
    requireDepth p t = .refused .stackDepthZero :=
  if_pos h

end Sys2Proof.Machine
end

