-- ==== Sys2Proof/Laws/Draw.lean ====
section
/-! SUPPORT. The laws of drawing: what a row and a sprite make of every pixel, and when they collide (spec 44_display.md
R271 to R276). -/

namespace Sys2Proof.Machine

/-- The sprite column c, drawn from (x, y), lies on the pixel. -/
def hit (px : Fin 64) (py : Fin 32) (x y : Nat) (c : Nat) : Bool := decide (wrapX (x + c) = px ∧ wrapY y = py)

/-- Columns that fall on distinct pixel columns: what they make of a pixel, and when they collide (R271, R276). -/
theorem foldl_drawBit (x y : Nat) (b : Byte) (px : Fin 64) (py : Fin 32) (cols : List Nat)
    (hn : (cols.map (fun c => (x + c) % 64)).Nodup) (acc : Framebuffer × Bool) :
    (cols.foldl (drawBit x y b) acc).1.pixel px py = (acc.1.pixel px py ^^
        cols.any (fun c => b.getLsbD (7 - c) && hit px py x y c)) ∧
    ((cols.foldl (drawBit x y b) acc).2 =
        (acc.2 || cols.any (fun c => b.getLsbD (7 - c) && acc.1.pixel (wrapX (x + c)) (wrapY y)))) := by
  induction cols generalizing acc with
  | nil => simp
  | cons c cols ih =>
    simp only [List.map_cons, List.nodup_cons] at hn
    obtain ⟨ih1, ih2⟩ := ih hn.2 (drawBit x y b acc c)
    simp only [List.foldl_cons, ih1, ih2, List.any_cons]
    by_cases hb : b.getLsbD (7 - c) = true
    · rw [drawBit_of_set hb]
      simp only [Framebuffer.pixel_toggle, hb, Bool.true_and]
      constructor
      · by_cases hh : wrapX (x + c) = px ∧ wrapY y = py
        · have hno : cols.any (fun c => b.getLsbD (7 - c) && hit px py x y c) = false := by
            rw [List.any_eq_false]
            intro c' hc' he
            simp [hit] at he
            apply hn.1
            rw [List.mem_map]
            refine ⟨c', hc', ?_⟩
            have := hh.1.trans he.2.1.symm
            simpa [wrapX] using this.symm
          rw [if_pos hh, hno, ← hh.1, ← hh.2]
          simp [hit]
        · simp [hit, hh]
      · rw [Bool.or_assoc]
        congr 2
        rw [Bool.eq_iff_iff, List.any_eq_true, List.any_eq_true]
        refine exists_congr fun c' => and_congr_right fun hc' => ?_
        have : ¬(wrapX (x + c) = wrapX (x + c')) := by
          intro e
          apply hn.1
          rw [List.mem_map]
          exact ⟨c', hc', by simpa [wrapX] using e.symm⟩
        simp [this]
    · have hb' : b.getLsbD (7 - c) = false := by simpa using hb
      rw [drawBit_of_clear hb']
      simp [hb']
/-- R276: the eight columns of a row are distinct. -/
theorem nodup_cols (x : Nat) : (([0,1,2,3,4,5,6,7] : List Nat).map (fun c => (x + c) % 64)).Nodup := by
  simp; omega

/-- A row's byte has a set bit on the pixel column (R272, R274). -/
def rowBit (b : Byte) (x : Nat) (px : Fin 64) : Bool :=
    decide ((px.val + 64 - x % 64) % 64 < 8) && b.getLsbD (7 - (px.val + 64 - x % 64) % 64)

/-- The columns that lie on a pixel, said per pixel. -/
theorem any_cols (x y : Nat) (b : Byte) (px : Fin 64) (py : Fin 32) :
    ([0,1,2,3,4,5,6,7] : List Nat).any (fun c => b.getLsbD (7 - c) && hit px py x y c) =
        (rowBit b x px && decide (wrapY y = py)) := by
  rw [Bool.eq_iff_iff, List.any_eq_true]
  have hpx := px.isLt
  have hmem : ∀ c : Nat, c ∈ ([0,1,2,3,4,5,6,7] : List Nat) ↔ c < 8 := by intro c; simp; omega
  simp only [hit, rowBit, Bool.and_eq_true, decide_eq_true_eq, hmem]
  constructor
  · rintro ⟨c, hc, hb, rfl, hy⟩
    have e : ((wrapX (x + c)).val + 64 - x % 64) % 64 = c := by simp [wrapX]; omega
    rw [e]
    exact ⟨⟨hc, hb⟩, hy⟩
  · rintro ⟨⟨hc, hb⟩, hy⟩
    refine ⟨_, hc, hb, ?_, hy⟩
    apply Fin.ext
    simp [wrapX]; omega

/-- Everything one row does: the pixels it inverts, and when it collides. -/
theorem drawRow_spec (x y : Nat) (b : Byte) (acc : Framebuffer × Bool) :
    (∀ px py, (drawRow x y b acc).1.pixel px py = (acc.1.pixel px py ^^ (rowBit b x px && decide (wrapY y = py)))) ∧
    ((drawRow x y b acc).2 = true ↔ acc.2 = true ∨ ∃ px, rowBit b x px = true ∧ acc.1.pixel px (wrapY y) = true) := by
  refine ⟨fun px py => ?_, ?_⟩
  · rw [drawRow, (foldl_drawBit x y b px py _ (nodup_cols x) acc).1, any_cols]
  · rw [drawRow, (foldl_drawBit x y b 0 0 _ (nodup_cols x) acc).2]
    have hmem : ∀ c : Nat, c ∈ ([0,1,2,3,4,5,6,7] : List Nat) ↔ c < 8 := by intro c; simp; omega
    simp only [Bool.or_eq_true, List.any_eq_true, Bool.and_eq_true, hmem]
    refine or_congr Iff.rfl ⟨?_, ?_⟩
    · rintro ⟨c, hc, hb, hp⟩
      refine ⟨wrapX (x + c), ?_, hp⟩
      have e : ((wrapX (x + c)).val + 64 - x % 64) % 64 = c := by simp [wrapX]; omega
      unfold rowBit; rw [e]; simp [hc, hb]
    · rintro ⟨px, hb, hp⟩
      have hpx := px.isLt
      simp only [rowBit, Bool.and_eq_true, decide_eq_true_eq] at hb
      refine ⟨_, hb.1, hb.2, ?_⟩
      have : wrapX (x + (px.val + 64 - x % 64) % 64) = px := by apply Fin.ext; simp [wrapX]; omega
      rw [this]; exact hp

/-- Everything the loop over at most 32 rows does: the pixels it inverts, and when it collides (R271, R276). -/
theorem drawRows_spec (x : Nat) (bs : List Byte) (y : Nat) (acc : Framebuffer × Bool) (hl : bs.length ≤ 32) :
    (∀ px py, (drawRows x y bs acc).1.pixel px py = (acc.1.pixel px py ^^
        ((bs[(py.val + 32 - y % 32) % 32]?).elim false (fun b => rowBit b x px)))) ∧
    ((drawRows x y bs acc).2 = true ↔
        acc.2 = true ∨ ∃ px py, (bs[(py.val + 32 - y % 32) % 32]?).elim false (fun b => rowBit b x px) = true ∧ acc.1.pixel px py = true) := by
  induction bs generalizing y acc with
  | nil => simp [drawRows]
  | cons b bs ih =>
    simp only [List.length_cons] at hl
    obtain ⟨r1, r2⟩ := drawRow_spec x y b acc
    obtain ⟨i1, i2⟩ := ih (y + 1) (drawRow x y b acc) (by omega)
    have hcase : ∀ px (py : Fin 32), ((b :: bs)[(py.val + 32 - y % 32) % 32]?).elim false (fun b => rowBit b x px) =
        if wrapY y = py then rowBit b x px
            else (bs[(py.val + 32 - (y+1) % 32) % 32]?).elim false (fun b => rowBit b x px) := by
      intro px py
      have hpy := py.isLt
      split
      · rename_i h
        have : (py.val + 32 - y % 32) % 32 = 0 := by rw [← h]; simp
        rw [this]; rfl
      · rename_i h
        have hne : y % 32 ≠ py.val := fun e => h (Fin.ext e)
        have : (py.val + 32 - y % 32) % 32 = (py.val + 32 - (y+1) % 32) % 32 + 1 := by omega
        rw [this]; rfl
    have hlast : ∀ px, (bs[((wrapY y).val + 32 - (y+1) % 32) % 32]?).elim false (fun b => rowBit b x px) = false := by
      intro px
      have : ((wrapY y).val + 32 - (y+1) % 32) % 32 = 31 := by simp; omega
      rw [this, List.getElem?_eq_none (by omega)]; rfl
    refine ⟨fun px py => ?_, ?_⟩
    · rw [drawRows, i1, r1, hcase]
      by_cases h : wrapY y = py
      · subst h; rw [hlast]; simp
      · simp [h]
    · rw [drawRows, i2, r2]
      constructor
      · rintro ((h | ⟨px, hb, hp⟩) | ⟨px, py, hb, hp⟩)
        · exact .inl h
        · exact .inr ⟨px, wrapY y, by rw [hcase, if_pos rfl]; exact hb, hp⟩
        · refine .inr ⟨px, py, ?_, ?_⟩
          · rw [hcase, if_neg]
            · exact hb
            · rintro rfl; rw [hlast] at hb; cases hb
          · rw [r1] at hp
            have : wrapY y ≠ py := by rintro rfl; rw [hlast] at hb; cases hb
            simpa [this] using hp
      · rintro (h | ⟨px, py, hb, hp⟩)
        · exact .inl (.inl h)
        · rw [hcase] at hb
          split at hb
          · rename_i h; subst h; exact .inl (.inr ⟨px, hb, hp⟩)
          · rename_i h
            refine .inr ⟨px, py, hb, ?_⟩
            rw [r1]; simpa [h] using hp

/-- The rows as bytes of memory. -/
theorem rowBit_readBlock (m : Memory) (base n x y : Nat) (px : Fin 64) (py : Fin 32) :
   (((m.readBlock base n)[(py.val + 32 - y % 32) % 32]?).elim false (fun b => rowBit b x px)) =
       spriteCovers m base n x y px py := by
  unfold spriteCovers rowBit
  by_cases h : (py.val + 32 - y % 32) % 32 < n
  · rw [List.getElem?_eq_getElem (by simpa using h)]
    simp [h]
  · rw [List.getElem?_eq_none (by simpa using h)]
    simp [h]

/-- Everything DRW's drawing does (R271): the pixels it inverts, and when it collides. -/
theorem State.drawn_spec (s : State) (x y : RegIdx) (n : Nibble) :
    (∀ px py, (s.drawn x y n).1.pixel px py = (s.fb.pixel px py ^^
        spriteCovers s.mem s.i.toNat n.toNat (s.reg x).toNat (s.reg y).toNat px py)) ∧
    ((s.drawn x y n).2 = true ↔
        ∃ px py, spriteCovers s.mem s.i.toNat n.toNat (s.reg x).toNat (s.reg y).toNat px py = true ∧ s.fb.pixel px py = true) := by
  have hn := n.isLt
  obtain ⟨h1, h2⟩ := drawRows_spec (s.reg x).toNat (s.mem.readBlock s.i.toNat n.toNat) (s.reg y).toNat
      (s.fb, false) (by simp; omega)
  simp only [rowBit_readBlock] at h1 h2
  refine ⟨h1, ?_⟩
  rw [State.drawn, h2]; simp

end Sys2Proof.Machine
end

