-- ==== Sys2Proof/Laws/Exec.lean ====
section
/-! SUPPORT. The meanings that can stop, by what they answer; no meaning refuses. -/

namespace Sys2Proof.Machine

/-- RET answers next exactly on a stack with a top entry (R171). -/
theorem execRet_next_iff (g : BitVec 8) (s t : State) :
    execRet g s = .next t ↔
      ∃ rest a, s.stack = rest ++ [a] ∧ t = { s with stack := rest, pc := a, status := .executed } := by
  unfold execRet
  cases hp : s.pop? with
  | none =>
    have h := (State.pop?_eq_none_iff s).mp hp
    simp [raise, h]
  | some w =>
    obtain ⟨a, u⟩ := w
    obtain ⟨rest, hs, rfl⟩ := (State.pop?_eq_some_iff s u a).mp hp
    constructor
    · intro h
      injection h with h
      exact ⟨rest, a, hs, h.symm⟩
    · rintro ⟨rest', b, hs', rfl⟩
      obtain ⟨rfl, hb⟩ := List.append_inj' (hs.symm.trans hs') rfl
      obtain rfl : a = b := by simpa using hb
      rfl

/-- CALL answers next exactly below the depth bound (R173). -/
theorem execCall_next_iff (nnn : Addr12) (s t : State) :
    execCall nnn s = .next t ↔
      s.stack.length < s.params.stackDepth ∧
        t = { s with stack := s.stack ++ [s.pc + 2#16], pc := addrWord nnn, status := .executed } := by
  unfold execCall
  cases hp : s.push? s.npc with
  | none =>
    have h := (State.push?_eq_none_iff s s.npc).mp hp
    simp [raise]
    omega
  | some u =>
    obtain ⟨hl, rfl⟩ := (State.push?_eq_some_iff s u s.npc).mp hp
    constructor
    · intro h
      injection h with h
      exact ⟨hl, h.symm⟩
    · rintro ⟨-, rfl⟩
      rfl

/-- No meaning refuses. -/
theorem exec_ne_refused (i : Instr) (s : State) (r : Refusal) : exec i s ≠ .refused r := by
  cases i with
  | ret g =>
    simp only [exec, execRet]
    split <;> simp [raise]
  | call nnn =>
    simp only [exec, execCall]
    split <;> simp [raise]
  | drw x y n => exact withBounds_ne_refused _ _ _ _
  | ldBcd x => exact withBounds_ne_refused _ _ _ _
  | ldRegsToMem x => exact withBounds_ne_refused _ _ _ _
  | ldMemToRegs x => exact withBounds_ne_refused _ _ _ _
  | _ => exact fun h => by injection h

end Sys2Proof.Machine
end

