-- ==== Sys2Proof/Laws/PerInstr.lean ====
section
/-! SUPPORT. The family RowMatch, one lemma per constructor: the word of a well-formed instruction is given the
instruction's kind by the rows of spec/opcode_table.json, tried in the order of 30_encoding.md R113. -/

namespace Sys2Proof

/-- No row's mask looks at the bits 11..8 (R98: N1 discriminates nowhere). -/
theorem mask_ignores_n1 : ∀ r ∈ opcodeRows ++ [sysRow], (0xF0FF#16 : Word) &&& r.mask = r.mask := by decide

/-- A search that asks the same of two inputs finds the same row. -/
theorem find?_congr_mem {α : Type} {p q : α → Bool} {l : List α} (h : ∀ r ∈ l, p r = q r) : l.find? p = l.find? q := by
  induction l with
  | nil => rfl
  | cons r l ih =>
    rw [List.find?_cons, List.find?_cons, h r List.mem_cons_self, ih fun z hz => h z (List.mem_cons_of_mem _ hz)]

/-- Rows select words that agree under 0xF0FF alike. -/
theorem tableRow_congr {op op' : Word} (h : op &&& 0xF0FF#16 = op' &&& 0xF0FF#16) : tableRow op = tableRow op' := by
  refine find?_congr_mem fun r hr => ?_
  have hm := mask_ignores_n1 r hr
  have hand : op &&& r.mask = op' &&& r.mask := by rw [← hm, ← BitVec.and_assoc, h, BitVec.and_assoc]
  rw [OpcodeRow.selects, OpcodeRow.selects, hand]

/-- The table's kind does not depend on the bits 11..8. -/
theorem tableKind_congr (strict : Bool) {op op' : Word} (h : op &&& 0xF0FF#16 = op' &&& 0xF0FF#16) :
    tableKind strict op = tableKind strict op' := by
  unfold tableKind
  rw [tableRow_congr h]

/-- What is left of a word under 0xF0FF, by its fields. -/
theorem and_mask_concat3 (a x : Nibble) (k : Byte) :
    (a ++ x ++ k : Word) &&& 0xF0FF#16 = a ++ (0x0#4 : Nibble) ++ k := by
  have h : (0xF0FF#16 : Word) = (0xF#4 : Nibble) ++ (0x0#4 : Nibble) ++ (0xFF#8 : Byte) := by decide
  rw [h, BitVec.and_append, BitVec.and_append]
  have ha : a &&& (0xF#4 : Nibble) = a := BitVec.and_allOnes
  have hx : x &&& (0x0#4 : Nibble) = 0#4 := BitVec.and_zero
  have hk : k &&& (0xFF#8 : Byte) = k := BitVec.and_allOnes
  rw [ha, hx, hk]

/-- The kind of a word with the fields N0, N1, KK is that of the word with N1 = 0. -/
theorem tableKind_concat3 (strict : Bool) (a x : Nibble) (k : Byte) :
    tableKind strict (a ++ x ++ k) = tableKind strict (a ++ (0x0#4 : Nibble) ++ k) :=
  tableKind_congr strict (by rw [and_mask_concat3, and_mask_concat3])

/-- Four nibbles as N0, N1, KK. -/
theorem concat4_eq (a x y n : Nibble) : (a ++ x ++ y ++ n : Word) = a ++ x ++ (y ++ n : Byte) := by
  apply BitVec.eq_of_toNat_eq
  simp only [toNat_concat]
  omega

/-- N0 and NNN as N0, N1, KK. -/
theorem concat_eq (a : Nibble) (nnn : Addr12) :
    (a ++ nnn : Word) = a ++ (nnn.extractLsb' 8 4 : Nibble) ++ (nnn.extractLsb' 0 8 : Byte) := by
  apply BitVec.eq_of_toNat_eq
  have := nnn.isLt
  simp only [toNat_concat, BitVec.extractLsb'_toNat, Nat.shiftRight_eq_div_pow]
  omega

/-- N0, the ignored N1 N2, and N3 as N0, N1, KK. -/
theorem concat_ignored_eq (a n : Nibble) (g : BitVec 8) :
    (a ++ g ++ n : Word) = a ++ (g.extractLsb' 4 4 : Nibble) ++ ((g.extractLsb' 0 4 : Nibble) ++ n : Byte) := by
  apply BitVec.eq_of_toNat_eq
  have := g.isLt
  simp only [toNat_concat, BitVec.extractLsb'_toNat, Nat.shiftRight_eq_div_pow]
  omega

end Sys2Proof

namespace Sys2Proof.Laws.RowMatch

/-- The opcode table gives the word of a well-formed instruction the instruction's kind. -/
def Statement (i : Instr) : Prop := WellFormed i → tableKind false (encode i) = some i.kind

theorem cls (ignored : BitVec 8) : Statement (.cls ignored) := fun _ => by
  have h : ∀ y : Nibble, tableKind false (0x0#4 ++ 0x0#4 ++ (y ++ 0x0#4 : Byte)) = some .CLS := by decide
  rw [encode, concat_ignored_eq, tableKind_concat3]
  exact h _

theorem ret (ignored : BitVec 8) : Statement (.ret ignored) := fun _ => by
  have h : ∀ y : Nibble, tableKind false (0x0#4 ++ 0x0#4 ++ (y ++ 0xE#4 : Byte)) = some .RET := by decide
  rw [encode, concat_ignored_eq, tableKind_concat3]
  exact h _

theorem jp (nnn : Addr12) : Statement (.jp nnn) := fun _ => by
  have h : ∀ k : Byte, tableKind false (0x1#4 ++ 0x0#4 ++ k) = some .JP := by decide
  rw [encode, concat_eq, tableKind_concat3]
  exact h _

theorem call (nnn : Addr12) : Statement (.call nnn) := fun _ => by
  have h : ∀ k : Byte, tableKind false (0x2#4 ++ 0x0#4 ++ k) = some .CALL := by decide
  rw [encode, concat_eq, tableKind_concat3]
  exact h _

theorem seImm (x : RegIdx) (kk : Byte) : Statement (.seImm x kk) := fun _ => by
  have h : ∀ k : Byte, tableKind false (0x3#4 ++ 0x0#4 ++ k) = some .SE_IMM := by decide
  rw [encode, tableKind_concat3]
  exact h _

theorem sneImm (x : RegIdx) (kk : Byte) : Statement (.sneImm x kk) := fun _ => by
  have h : ∀ k : Byte, tableKind false (0x4#4 ++ 0x0#4 ++ k) = some .SNE_IMM := by decide
  rw [encode, tableKind_concat3]
  exact h _

theorem seReg (x y : RegIdx) : Statement (.seReg x y) := fun _ => by
  have h : ∀ y : Nibble, tableKind false (0x5#4 ++ 0x0#4 ++ (y ++ 0x0#4 : Byte)) = some .SE_REG := by decide
  rw [encode, concat4_eq, tableKind_concat3]
  exact h _

theorem ldImm (x : RegIdx) (kk : Byte) : Statement (.ldImm x kk) := fun _ => by
  have h : ∀ k : Byte, tableKind false (0x6#4 ++ 0x0#4 ++ k) = some .LD_IMM := by decide
  rw [encode, tableKind_concat3]
  exact h _

theorem addImm (x : RegIdx) (kk : Byte) : Statement (.addImm x kk) := fun _ => by
  have h : ∀ k : Byte, tableKind false (0x7#4 ++ 0x0#4 ++ k) = some .ADD_IMM := by decide
  rw [encode, tableKind_concat3]
  exact h _

theorem ldReg (x y : RegIdx) : Statement (.ldReg x y) := fun _ => by
  have h : ∀ y : Nibble, tableKind false (0x8#4 ++ 0x0#4 ++ (y ++ 0x0#4 : Byte)) = some .LD_REG := by decide
  rw [encode, concat4_eq, tableKind_concat3]
  exact h _

theorem orReg (x y : RegIdx) : Statement (.orReg x y) := fun _ => by
  have h : ∀ y : Nibble, tableKind false (0x8#4 ++ 0x0#4 ++ (y ++ 0x1#4 : Byte)) = some .OR := by decide
  rw [encode, concat4_eq, tableKind_concat3]
  exact h _

theorem andReg (x y : RegIdx) : Statement (.andReg x y) := fun _ => by
  have h : ∀ y : Nibble, tableKind false (0x8#4 ++ 0x0#4 ++ (y ++ 0x2#4 : Byte)) = some .AND := by decide
  rw [encode, concat4_eq, tableKind_concat3]
  exact h _

theorem xorReg (x y : RegIdx) : Statement (.xorReg x y) := fun _ => by
  have h : ∀ y : Nibble, tableKind false (0x8#4 ++ 0x0#4 ++ (y ++ 0x3#4 : Byte)) = some .XOR := by decide
  rw [encode, concat4_eq, tableKind_concat3]
  exact h _

theorem addReg (x y : RegIdx) : Statement (.addReg x y) := fun _ => by
  have h : ∀ y : Nibble, tableKind false (0x8#4 ++ 0x0#4 ++ (y ++ 0x4#4 : Byte)) = some .ADD_REG := by decide
  rw [encode, concat4_eq, tableKind_concat3]
  exact h _

theorem sub (x y : RegIdx) : Statement (.sub x y) := fun _ => by
  have h : ∀ y : Nibble, tableKind false (0x8#4 ++ 0x0#4 ++ (y ++ 0x5#4 : Byte)) = some .SUB := by decide
  rw [encode, concat4_eq, tableKind_concat3]
  exact h _

theorem shr (x y : RegIdx) : Statement (.shr x y) := fun _ => by
  have h : ∀ y : Nibble, tableKind false (0x8#4 ++ 0x0#4 ++ (y ++ 0x6#4 : Byte)) = some .SHR := by decide
  rw [encode, concat4_eq, tableKind_concat3]
  exact h _

theorem subn (x y : RegIdx) : Statement (.subn x y) := fun _ => by
  have h : ∀ y : Nibble, tableKind false (0x8#4 ++ 0x0#4 ++ (y ++ 0x7#4 : Byte)) = some .SUBN := by decide
  rw [encode, concat4_eq, tableKind_concat3]
  exact h _

theorem shl (x y : RegIdx) : Statement (.shl x y) := fun _ => by
  have h : ∀ y : Nibble, tableKind false (0x8#4 ++ 0x0#4 ++ (y ++ 0xE#4 : Byte)) = some .SHL := by decide
  rw [encode, concat4_eq, tableKind_concat3]
  exact h _

theorem sneReg (x y : RegIdx) : Statement (.sneReg x y) := fun _ => by
  have h : ∀ y : Nibble, tableKind false (0x9#4 ++ 0x0#4 ++ (y ++ 0x0#4 : Byte)) = some .SNE_REG := by decide
  rw [encode, concat4_eq, tableKind_concat3]
  exact h _

theorem ldIndex (nnn : Addr12) : Statement (.ldIndex nnn) := fun _ => by
  have h : ∀ k : Byte, tableKind false (0xA#4 ++ 0x0#4 ++ k) = some .LD_INDEX := by decide
  rw [encode, concat_eq, tableKind_concat3]
  exact h _

theorem jpOffset (nnn : Addr12) : Statement (.jpOffset nnn) := fun _ => by
  have h : ∀ k : Byte, tableKind false (0xB#4 ++ 0x0#4 ++ k) = some .JP_OFFSET := by decide
  rw [encode, concat_eq, tableKind_concat3]
  exact h _

theorem rnd (x : RegIdx) (kk : Byte) : Statement (.rnd x kk) := fun _ => by
  have h : ∀ k : Byte, tableKind false (0xC#4 ++ 0x0#4 ++ k) = some .RND := by decide
  rw [encode, tableKind_concat3]
  exact h _

theorem drw (x y : RegIdx) (n : Nibble) : Statement (.drw x y n) := fun _ => by
  have h : ∀ k : Byte, tableKind false (0xD#4 ++ 0x0#4 ++ k) = some .DRW := by decide
  rw [encode, concat4_eq, tableKind_concat3]
  exact h _

theorem skp (x : RegIdx) : Statement (.skp x) := fun _ => by
  have h : tableKind false (0xE#4 ++ 0x0#4 ++ 0x9E#8) = some .SKP := by decide
  rw [encode, tableKind_concat3]
  exact h

theorem sknp (x : RegIdx) : Statement (.sknp x) := fun _ => by
  have h : tableKind false (0xE#4 ++ 0x0#4 ++ 0xA1#8) = some .SKNP := by decide
  rw [encode, tableKind_concat3]
  exact h

theorem ldFromDelay (x : RegIdx) : Statement (.ldFromDelay x) := fun _ => by
  have h : tableKind false (0xF#4 ++ 0x0#4 ++ 0x07#8) = some .LD_FROM_DELAY := by decide
  rw [encode, tableKind_concat3]
  exact h

theorem ldKeypress (x : RegIdx) : Statement (.ldKeypress x) := fun _ => by
  have h : tableKind false (0xF#4 ++ 0x0#4 ++ 0x0A#8) = some .LD_KEYPRESS := by decide
  rw [encode, tableKind_concat3]
  exact h

theorem ldToDelay (x : RegIdx) : Statement (.ldToDelay x) := fun _ => by
  have h : tableKind false (0xF#4 ++ 0x0#4 ++ 0x15#8) = some .LD_TO_DELAY := by decide
  rw [encode, tableKind_concat3]
  exact h

theorem ldToSound (x : RegIdx) : Statement (.ldToSound x) := fun _ => by
  have h : tableKind false (0xF#4 ++ 0x0#4 ++ 0x18#8) = some .LD_TO_SOUND := by decide
  rw [encode, tableKind_concat3]
  exact h

theorem addIndex (x : RegIdx) : Statement (.addIndex x) := fun _ => by
  have h : tableKind false (0xF#4 ++ 0x0#4 ++ 0x1E#8) = some .ADD_INDEX := by decide
  rw [encode, tableKind_concat3]
  exact h

theorem ldSpriteAddr (x : RegIdx) : Statement (.ldSpriteAddr x) := fun _ => by
  have h : tableKind false (0xF#4 ++ 0x0#4 ++ 0x29#8) = some .LD_SPRITE_ADDR := by decide
  rw [encode, tableKind_concat3]
  exact h

theorem ldBcd (x : RegIdx) : Statement (.ldBcd x) := fun _ => by
  have h : tableKind false (0xF#4 ++ 0x0#4 ++ 0x33#8) = some .LD_BCD := by decide
  rw [encode, tableKind_concat3]
  exact h

theorem ldRegsToMem (x : RegIdx) : Statement (.ldRegsToMem x) := fun _ => by
  have h : tableKind false (0xF#4 ++ 0x0#4 ++ 0x55#8) = some .LD_REGS_TO_MEM := by decide
  rw [encode, tableKind_concat3]
  exact h

theorem ldMemToRegs (x : RegIdx) : Statement (.ldMemToRegs x) := fun _ => by
  have h : tableKind false (0xF#4 ++ 0x0#4 ++ 0x65#8) = some .LD_MEM_TO_REGS := by decide
  rw [encode, tableKind_concat3]
  exact h

theorem sys (nnn : Addr12) : Statement (.sys nnn) := fun hwf => by
  have h : ∀ k : Byte, k.extractLsb' 0 4 ≠ 0x0#4 → k.extractLsb' 0 4 ≠ 0xE#4 →
      tableKind false (0x0#4 ++ 0x0#4 ++ k) = some .SYS := by decide
  have hn : (nnn.extractLsb' 0 8 : Byte).extractLsb' 0 4 = (nnn.extractLsb' 0 4 : Nibble) := by
    apply BitVec.eq_of_toNat_eq
    simp only [BitVec.extractLsb'_toNat, Nat.shiftRight_eq_div_pow]
    omega
  have hne : ¬(nnn.extractLsb' 0 4 = 0x0#4 ∨ nnn.extractLsb' 0 4 = 0xE#4) := fun hc => by
    rw [WellFormed, checkInstr, if_pos hc] at hwf
    cases hwf
  rw [encode, concat_eq, tableKind_concat3]
  exact h _ (fun e => hne (.inl (hn ▸ e))) (fun e => hne (.inr (hn ▸ e)))

theorem sysUnmatched (op : Word) : Statement (.sysUnmatched op) := fun hwf => by
  have hm : matchesNoRow op = true := by
    by_contra hc
    rw [WellFormed, checkInstr, if_neg hc] at hwf
    cases hwf
  have hr : tableRow op = none := Option.isNone_iff_eq_none.mp hm
  rw [encode, tableKind, hr]
  rfl

end Sys2Proof.Laws.RowMatch
end

