-- ==== Sys2Proof/Tests/Slice0.lean ====
section
/-! SUPPORT. The model's own tests: ill-formed terms that the check refuses; words written out from opcode_table.json
and what they decode to; at most two steps per instruction, with the expected values of 95_test_vectors.md; and a
witness for every obligation that has hypotheses. -/

namespace Sys2Proof.Tests

open Sys2Proof Sys2Proof.Machine

/-! ## Helpers -/

/-- A value of the next state, if there is one. -/
def after {α : Type} (o : Result) (f : State → α) : Option α :=
  match o with
  | .next t => some (f t)
  | _ => none

/-- The fault, if there is one. -/
def faultOf (o : Result) : Option Fault :=
  match o with
  | .fault f => some f
  | _ => none

/-- The state after create with an opcode at 0x200, the start of the vectors of 95_test_vectors.md. -/
def boot (op : Nat) : State := State.reset.withFetchWord 16 op

/-- `boot` with one register set. -/
def boot1 (op : Nat) (x : RegIdx) (a : Byte) : State := (boot op).setReg x a

/-- `boot` with two registers set. -/
def boot2 (op : Nat) (x : RegIdx) (a : Byte) (y : RegIdx) (b : Byte) : State := (boot1 op x a).setReg y b

/-- The state with bytes stored from an address on, and I there. -/
def withData (s : State) (a : Nat) (bs : List Byte) : State :=
  (s.setMem (s.mem.writeBlock a bs)).setI (BitVec.ofNat 16 a)

/-- The state with strict decode. -/
def strictly (s : State) : State := { s with params := { s.params with strictDecode := true } }

/-- A list of the pixels that are 1, out of those asked for. -/
def lit (s : State) (ps : List (Fin 64 × Fin 32)) : List Bool := ps.map fun p => s.fb.pixel p.1 p.2

/-! ## Well-formedness -/

theorem test_wf_refuses_sys_as_cls : checkInstr (.sys 0x120#12) = .error .sysIsClsOrRet := by decide
theorem test_wf_refuses_sys_as_ret : checkInstr (.sys 0x12E#12) = .error .sysIsClsOrRet := by decide
theorem test_wf_refuses_matched_word : checkInstr (.sysUnmatched 0x1234#16) = .error .wordMatchesARow := by decide
theorem test_wf_accepts :
    checkInstr (.sys 0x123#12) = .ok () ∧ checkInstr (.sysUnmatched 0x5121#16) = .ok () ∧
      checkInstr (.drw 0xF#4 0xF#4 0xF#4) = .ok () := by decide

/-! ## Decoding: words written out from the encoding column of opcode_table.json -/

theorem test_decode_control :
    decode false 0b0000000100100011#16 = .ok (.sys 0x123#12) ∧
    decode false 0b0000000011101110#16 = .ok (.ret 0x0E#8) ∧
    decode false 0b0000111111111110#16 = .ok (.ret 0xFF#8) ∧
    decode false 0b0001101010111100#16 = .ok (.jp 0xABC#12) ∧
    decode false 0b0010001100000000#16 = .ok (.call 0x300#12) ∧
    decode false 0b1011111111111111#16 = .ok (.jpOffset 0xFFF#12) := by decide

theorem test_decode_skips :
    decode false 0b0011001101000010#16 = .ok (.seImm 0x3#4 0x42#8) ∧
    decode false 0b0100001101000010#16 = .ok (.sneImm 0x3#4 0x42#8) ∧
    decode false 0b0101000100100000#16 = .ok (.seReg 0x1#4 0x2#4) ∧
    decode false 0b1001000100100000#16 = .ok (.sneReg 0x1#4 0x2#4) ∧
    decode false 0b1110010110011110#16 = .ok (.skp 0x5#4) ∧
    decode false 0b1110010110100001#16 = .ok (.sknp 0x5#4) := by decide

theorem test_decode_alu_immediate :
    decode false 0b0110001110101011#16 = .ok (.ldImm 0x3#4 0xAB#8) ∧
    decode false 0b0111000011111111#16 = .ok (.addImm 0x0#4 0xFF#8) ∧
    decode false 0b1100001100001111#16 = .ok (.rnd 0x3#4 0x0F#8) := by decide

theorem test_decode_alu_registers :
    decode false 0b1000000100100000#16 = .ok (.ldReg 0x1#4 0x2#4) ∧
    decode false 0b1000000100100001#16 = .ok (.orReg 0x1#4 0x2#4) ∧
    decode false 0b1000000100100010#16 = .ok (.andReg 0x1#4 0x2#4) ∧
    decode false 0b1000000100100011#16 = .ok (.xorReg 0x1#4 0x2#4) ∧
    decode false 0b1000000100100100#16 = .ok (.addReg 0x1#4 0x2#4) ∧
    decode false 0b1000000100100101#16 = .ok (.sub 0x1#4 0x2#4) ∧
    decode false 0b1000000100100110#16 = .ok (.shr 0x1#4 0x2#4) ∧
    decode false 0b1000000100100111#16 = .ok (.subn 0x1#4 0x2#4) ∧
    decode false 0b1000000100101110#16 = .ok (.shl 0x1#4 0x2#4) := by decide

theorem test_decode_index_memory :
    decode false 0b1010000100100011#16 = .ok (.ldIndex 0x123#12) ∧
    decode false 0b1111001100011110#16 = .ok (.addIndex 0x3#4) ∧
    decode false 0b1111001100101001#16 = .ok (.ldSpriteAddr 0x3#4) ∧
    decode false 0b1111000100110011#16 = .ok (.ldBcd 0x1#4) ∧
    decode false 0b1111001001010101#16 = .ok (.ldRegsToMem 0x2#4) ∧
    decode false 0b1111001001100101#16 = .ok (.ldMemToRegs 0x2#4) := by decide

theorem test_decode_display_and_timers :
    decode false 0b0000000011100000#16 = .ok (.cls 0x0E#8) ∧
    decode false 0b0000000000000000#16 = .ok (.cls 0x00#8) ∧
    decode false 0b1101000100101111#16 = .ok (.drw 0x1#4 0x2#4 0xF#4) ∧
    decode false 0b1111000100000111#16 = .ok (.ldFromDelay 0x1#4) ∧
    decode false 0b1111001100001010#16 = .ok (.ldKeypress 0x3#4) ∧
    decode false 0b1111000100010101#16 = .ok (.ldToDelay 0x1#4) ∧
    decode false 0b1111000100011000#16 = .ok (.ldToSound 0x1#4) := by decide

theorem test_decode_unmatched_default :
    decode false 0x5121#16 = .ok (.sysUnmatched 0x5121#16) ∧
    decode false 0x8008#16 = .ok (.sysUnmatched 0x8008#16) ∧
    decode false 0xE000#16 = .ok (.sysUnmatched 0xE000#16) ∧
    decode false 0xF0FF#16 = .ok (.sysUnmatched 0xF0FF#16) := by decide

theorem test_decode_unmatched_strict :
    decode true 0x5121#16 = .error (.unsupported 0x5121#16) ∧
    decode true 0x8008#16 = .error (.unsupported 0x8008#16) ∧
    decode true 0xE000#16 = .error (.unsupported 0xE000#16) ∧
    decode true 0xF0FF#16 = .error (.unsupported 0xF0FF#16) ∧
    decode true 0x0123#16 = .ok (.sys 0x123#12) := by decide

theorem test_decode_bytes_high_byte_first :
    decodeBytes false [0x1A#8, 0xBC#8, 0x77#8] = .ok (.jp 0xABC#12, [0x77#8]) ∧
    decodeBytes false [0x1A#8] = .error .truncated := by decide

theorem test_decode_table_word :
    decodeTableWord 16 0xD123 = some (.drw 0x1#4 0x2#4 0x3#4) ∧ decodeTableWord 16 0x00E0 = some (.cls 0x0E#8) := by
  decide

theorem test_encode :
    encode (.subn 0x1#4 0x2#4) = 0x8127#16 ∧ encode (.ldKeypress 0x3#4) = 0xF30A#16 ∧
    encode (.ret 0x0E#8) = 0x00EE#16 ∧ encodeBytes (.call 0x345#12) = [0x23#8, 0x45#8] := by decide

/-! ## Fetch (95_test_vectors.md 2.2, 2.8) -/

theorem test_fetch_at_odd_pc :
    after (step ({ withData State.reset 0x201 [0x60#8, 0x05#8] with pc := 0x201#16 })) (fun t => (t.reg 0#4, t.pc)) =
      some (0x05#8, 0x203#16) := by decide

theorem test_skip_past_the_end :
    after (step { withData State.reset 0xFFE [0x30#8, 0x00#8] with pc := 0xFFE#16 }) (fun t => t.pc) =
      some 0x1002#16 := by decide

theorem test_fetch_bound_comes_before_strict_decode :
    faultOf (step { strictly State.reset with pc := 0xFFF#16 }) = some (.memoryOutOfBounds 0xFFF 2) := by decide

theorem test_strict_fault : faultOf (step (strictly (boot 0x5121))) = some (.unsupportedOpcode 0x5121#16) := by decide

theorem test_with_fetch_word_past_the_end :
    after (step ({ State.reset with pc := 0xFFF#16 }.withFetchWord 16 0x1ABC)) (fun t => t.pc) = some 0xABC#16 := by
  decide

/-! ## Control flow (2.3) -/

theorem test_sys : after (step (boot 0x0123)) id = some { boot 0x0123 with pc := 0x202#16, draws := 1 } := by decide
theorem test_sys_unmatched :
    after (step (boot2 0x5121 1#4 9#8 2#4 9#8)) (fun t => t.pc) = some 0x202#16 := by decide

theorem test_ret :
    after (step { boot 0x00EE with stack := [0x111#16, 0x302#16] }) (fun t => (t.stack, t.pc)) =
      some ([0x111#16], 0x302#16) := by decide
theorem test_ret_empty : faultOf (step (boot 0x00EE)) = some .stackUnderflow := by decide

theorem test_jp : after (step (boot 0x1ABC)) (fun t => t.pc) = some 0xABC#16 := by decide

theorem test_call :
    after (step { boot 0x2300 with stack := [0x111#16] }) (fun t => (t.stack, t.pc)) =
      some ([0x111#16, 0x202#16], 0x300#16) := by decide
theorem test_call_full :
    faultOf (step { boot 0x2300 with stack := List.replicate 16 0x300#16 }) = some .stackOverflow := by decide

theorem test_jp_offset : after (step (boot1 0xBFFF 0#4 0xFF#8)) (fun t => t.pc) = some 0x10FE#16 := by decide

theorem test_se_imm_equal : after (step (boot1 0x3F05 0xF#4 5#8)) (fun t => t.pc) = some 0x204#16 := by decide
theorem test_se_imm_unequal : after (step (boot1 0x3342 3#4 0x41#8)) (fun t => t.pc) = some 0x202#16 := by decide
theorem test_sne_imm_equal : after (step (boot1 0x4342 3#4 0x42#8)) (fun t => t.pc) = some 0x202#16 := by decide
theorem test_sne_imm_unequal : after (step (boot1 0x4342 3#4 0x41#8)) (fun t => t.pc) = some 0x204#16 := by decide
theorem test_se_reg_equal : after (step (boot2 0x5120 1#4 9#8 2#4 9#8)) (fun t => t.pc) = some 0x204#16 := by decide
theorem test_se_reg_unequal : after (step (boot2 0x5120 1#4 9#8 2#4 8#8)) (fun t => t.pc) = some 0x202#16 := by decide
theorem test_sne_reg_equal : after (step (boot2 0x9120 1#4 9#8 2#4 9#8)) (fun t => t.pc) = some 0x202#16 := by decide
theorem test_sne_reg_unequal : after (step (boot2 0x9120 1#4 9#8 2#4 8#8)) (fun t => t.pc) = some 0x204#16 := by decide

/-! ## Arithmetic and logic (2.4) -/

/-- A register, VF and the pc after a step. -/
def flagged (x : RegIdx) (o : Result) : Option (Byte × Byte × Word) :=
  after o fun t => (t.reg x, t.reg 0xF#4, t.pc)

theorem test_ld_imm : flagged 3#4 (step (boot 0x63AB)) = some (0xAB#8, 0#8, 0x202#16) := by decide
theorem test_add_imm_wraps : flagged 0#4 (step (boot1 0x70FF 0#4 1#8)) = some (0#8, 0#8, 0x202#16) := by decide
theorem test_ld_reg : flagged 0#4 (step (boot2 0x8010 0#4 1#8 1#4 0xAB#8)) = some (0xAB#8, 0#8, 0x202#16) := by decide
theorem test_or_on_vf : flagged 0xF#4 (step (boot2 0x8F11 0xF#4 0x0C#8 1#4 0x0A#8)) = some (0x0E#8, 0x0E#8, 0x202#16) := by
  decide
theorem test_and : flagged 0#4 (step (boot2 0x8012 0#4 0x0C#8 1#4 0x0A#8)) = some (8#8, 0#8, 0x202#16) := by decide
theorem test_xor : flagged 0#4 (step (boot2 0x8013 0#4 0x0C#8 1#4 0x0A#8)) = some (6#8, 0#8, 0x202#16) := by decide
theorem test_add_reg : flagged 0#4 (step (boot2 0x8014 0#4 200#8 1#4 100#8)) = some (44#8, 1#8, 0x202#16) := by decide
theorem test_add_reg_into_vf :
    flagged 0xF#4 (step (boot2 0x8F14 0xF#4 200#8 1#4 100#8)) = some (0x2C#8, 0x2C#8, 0x202#16) := by decide
theorem test_sub_borrows : flagged 0#4 (step (boot2 0x8015 0#4 5#8 1#4 10#8)) = some (251#8, 0#8, 0x202#16) := by decide
theorem test_sub_equal : flagged 0#4 (step (boot2 0x8015 0#4 7#8 1#4 7#8)) = some (0#8, 0#8, 0x202#16) := by decide
theorem test_subn_writes_vy :
    after (step (boot2 0x8127 1#4 5#8 2#4 10#8)) (fun t => (t.reg 1#4, t.reg 2#4, t.reg 0xF#4)) =
      some (5#8, 5#8, 1#8) := by decide
theorem test_subn_into_vf :
    flagged 1#4 (step (boot2 0x81F7 1#4 3#8 0xF#4 10#8)) = some (3#8, 7#8, 0x202#16) := by decide
theorem test_shr : flagged 0#4 (step (boot1 0x8016 0#4 0x81#8)) = some (0x40#8, 1#8, 0x202#16) := by decide
theorem test_shr_ignores_vy :
    flagged 0#4 (step (boot2 0x80F6 0#4 2#8 0xF#4 0x77#8)) = some (1#8, 0#8, 0x202#16) := by decide
theorem test_shl : flagged 0#4 (step (boot1 0x801E 0#4 0x81#8)) = some (2#8, 1#8, 0x202#16) := by decide
theorem test_shl_on_vf : flagged 0xF#4 (step (boot1 0x8F0E 0xF#4 0xC0#8)) = some (0x80#8, 0x80#8, 0x202#16) := by decide
theorem test_rnd :
    flagged 3#4 (step ((boot 0xC30F).offer (some ⟨[], none, 0xA7#8⟩))) = some (7#8, 0#8, 0x202#16) := by decide

/-! ## Index register and memory (2.5) -/

theorem test_ld_index : after (step (boot 0xA123)) (fun t => (t.i, t.pc)) = some (0x123#16, 0x202#16) := by decide
theorem test_add_index :
    after (step ((boot1 0xF31E 3#4 1#8).setI 0x0FFF#16)) (fun t => (t.i, t.reg 0xF#4)) = some (0x1000#16, 0#8) := by
  decide
theorem test_add_index_wraps :
    after (step ((boot1 0xF31E 3#4 1#8).setI 0xFFFF#16)) (fun t => t.i) = some 0#16 := by decide
theorem test_ld_sprite_addr_digit :
    after (step (boot1 0xF329 3#4 0x0A#8)) (fun t => t.i) = some 0x032#16 := by decide
theorem test_ld_sprite_addr_unmasked :
    after (step (boot1 0xF329 3#4 0xFF#8)) (fun t => t.i) = some 0x4FB#16 := by decide
theorem test_ld_bcd :
    after (step ((boot1 0xF133 1#4 234#8).setI 0x300#16)) (fun t => (t.mem.readBlock 0x2FF 5, t.i)) =
      some ([0#8, 2#8, 3#8, 4#8, 0#8], 0x300#16) := by decide
theorem test_ld_bcd_past_the_end :
    faultOf (step ((boot1 0xF133 1#4 199#8).setI 0xFFE#16)) = some (.memoryOutOfBounds 0xFFE 3) := by decide
theorem test_ld_regs_to_mem :
    after (step ((((boot2 0xF255 0#4 1#8 1#4 2#8).setReg 2#4 3#8).setReg 3#4 4#8).setI 0x300#16))
      (fun t => (t.mem.readBlock 0x300 4, t.i)) = some ([1#8, 2#8, 3#8, 0#8], 0x300#16) := by decide
theorem test_ld_regs_to_mem_past_the_end :
    faultOf (step ((boot 0xFF55).setI 0xFF1#16)) = some (.memoryOutOfBounds 0xFF1 16) := by decide
theorem test_ld_mem_to_regs :
    after (step (withData (boot1 0xF265 3#4 0x55#8) 0x300 [7#8, 8#8, 9#8, 10#8]))
      (fun t => (t.reg 0#4, t.reg 1#4, t.reg 2#4, t.reg 3#4, t.i)) =
      some (7#8, 8#8, 9#8, 0x55#8, 0x300#16) := by decide
theorem test_ld_mem_to_regs_past_the_end :
    faultOf (step ((boot 0xF165).setI 0xFFF#16)) = some (.memoryOutOfBounds 0xFFF 2) := by decide

/-! ## Display (2.6) -/

theorem test_cls :
    after (step { boot1 0x00E0 0xF#4 5#8 with fb := Vector.replicate 64 (Vector.replicate 32 true) })
      (fun t => (t.fb, t.reg 0xF#4, t.pc)) = some (Framebuffer.blank, 5#8, 0x202#16) := by decide

theorem test_drw_wraps_columns :
    after (step (withData (boot1 0xD011 0#4 60#8) 0x300 [0xFF#8]))
      (fun t => (lit t [(59, 0), (60, 0), (63, 0), (0, 0), (3, 0), (4, 0), (60, 1)], t.reg 0xF#4, t.pc)) =
      some ([false, true, true, true, true, false, false], 0#8, 0x202#16) := by decide

theorem test_drw_collides :
    after (step { withData (boot 0xD011) 0x300 [0xC0#8] with
        fb := (Framebuffer.blank.toggle 1 0).toggle 5 0 })
      (fun t => (lit t [(0, 0), (1, 0), (5, 0)], t.reg 0xF#4)) = some ([true, false, true], 1#8) := by decide

/-! ## Keypad and timers (2.7) -/

/-- Only key 0x0A is pressed. -/
def keyA : Option Answers := some ⟨[0x0A#8], none, 0#8⟩

theorem test_skp :
    after (step ((boot1 0xE59E 5#4 0x0A#8).offer keyA)) (fun t => t.pc) = some 0x204#16 ∧
    after (step ((boot1 0xE59E 5#4 0x0B#8).offer keyA)) (fun t => t.pc) = some 0x202#16 := by decide
theorem test_sknp :
    after (step ((boot1 0xE5A1 5#4 0x0A#8).offer keyA)) (fun t => t.pc) = some 0x202#16 ∧
    after (step ((boot1 0xE5A1 5#4 0x0B#8).offer keyA)) (fun t => t.pc) = some 0x204#16 := by decide
theorem test_ld_keypress_event :
    after (step ((boot 0xF30A).offer (some ⟨[], some 7#8, 0#8⟩))) (fun t => (t.reg 3#4, t.pc, t.status)) =
      some (7#8, 0x202#16, .executed) := by decide
theorem test_ld_keypress_waits :
    after (step ((boot 0xF30A).offer keyA)) (fun t => (t.reg 3#4, t.pc, t.status)) =
      some (0#8, 0x200#16, .awaitingInput) := by decide
theorem test_ld_from_delay :
    after (step ((boot 0xF107).setDT 0x3C#8)) (fun t => (t.reg 1#4, t.dt, t.st)) = some (0x3C#8, 0x3C#8, 0#8) := by decide
theorem test_ld_to_delay :
    after (step (boot1 0xF115 1#4 0x3C#8)) (fun t => (t.dt, t.st)) = some (0x3C#8, 0#8) := by decide
theorem test_ld_to_sound :
    after (step (boot1 0xF118 1#4 5#8)) (fun t => (t.dt, t.st)) = some (0#8, 5#8) := by decide

/-! ## Host transactions (2.7) -/

theorem test_tick : State.tickTimers ((State.reset.setDT 1#8).setST 3#8) = State.reset.setST 2#8 := by decide
theorem test_load_fits :
    after (State.reset.loadProgram [1#8, 2#8, 3#8] 0xFFD) (fun t => (t.mem, t.pc)) =
      some ([(0xFFD, 1#8), (0xFFE, 2#8), (0xFFF, 3#8)], 0x200#16) := by decide
theorem test_load_does_not_fit :
    faultOf (State.reset.loadProgram [1#8, 2#8, 3#8] 0xFFE) = some (.memoryOutOfBounds 0xFFE 3) := by decide
/-- A host reset gives the machine its reset values and leaves the numbering of the free answers. -/
theorem test_create_transaction :
    let s : State := { boot1 0x00EE 3#4 9#8 with stack := [0x302#16], draws := 5 }
    let t := (transact s .create).1
    (t.reg 3#4, t.pc, t.stack, t.mem, t.draws) = (0#8, 0x200#16, [], [], 5) ∧ (transact s .create).2 = .ok := by decide
theorem test_step_transaction_waits :
    (transact (boot 0xF30A) (.step keyA)).2 = .stepped .awaitingInput := by decide
theorem test_load_empty : after (State.reset.loadProgram [] 0x1000) id = some State.reset := by decide

/-! ## Witnesses: for every obligation that has hypotheses, concrete states and operands that meet all of them, each
clause at a boundary of its range -/

theorem exists_next {o : Result} (h : after o (fun _ => ()) = some ()) : ∃ t, o = .next t := by
  cases o with
  | next t => exact ⟨t, rfl⟩
  | fault f => cases h
  | refused r => cases h

theorem eq_fault {o : Result} {f : Fault} (h : faultOf o = some f) : o = .fault f := by
  cases o with
  | next t => cases h
  | fault g => injection h with h; rw [h]
  | refused r => cases h

/-- A step, or a meaning, completes. -/
abbrev Completes (o : Result) : Prop := after o (fun _ => ()) = some ()

theorem witness_DecodeOfEncodeIsTheInstruction :
    (WellFormed (.drw 0xF#4 0xF#4 0x0#4) ∧ (Instr.drw 0xF#4 0xF#4 0x0#4).allowed true = true) ∧
    (WellFormed (.sys 0xFF1#12) ∧ (Instr.sys 0xFF1#12).allowed true = true) ∧
    (WellFormed (.sysUnmatched 0xFFFF#16) ∧ (Instr.sysUnmatched 0xFFFF#16).allowed false = true) := by decide

theorem witness_EncodeOfDecodeIsTheWord :
    decode true 0xFF65#16 = .ok (.ldMemToRegs 0xF#4) ∧
    decode false 0xFFFF#16 = .ok (.sysUnmatched 0xFFFF#16) := by decide

theorem witness_UnmatchedWordsExecuteAsSys : matchesNoRow 0x5001#16 = true ∧ matchesNoRow 0xFFFF#16 = true := by decide

theorem witness_StrictDecodeRejectsExactlyUnmatchedWords :
    matchesNoRow 0x9FFF#16 = true ∧ matchesNoRow 0x0FFF#16 = false := by decide

theorem witness_GroupZeroDecodesOnItsLowNibble :
    (opN0 0x0FF0#16 = 0x0#4 ∧ opN3 0x0FF0#16 = 0x0#4) ∧
    (opN0 0x0FFE#16 = 0x0#4 ∧ opN3 0x0FFE#16 = 0xE#4) ∧
    (opN0 0x0EEF#16 = 0x0#4 ∧ opN3 0x0EEF#16 ≠ 0x0#4 ∧ opN3 0x0EEF#16 ≠ 0xE#4) := by decide

/-- The last word that can be fetched, at 4094. -/
def lastWord (op : Word) : State :=
  { withData State.reset 4094 [highByte op, lowByte op] with pc := 4094#16 }

theorem witness_StepRunsTheDecodedInstruction :
    ((lastWord 0x1ABC#16).fetchable ∧
      decode (lastWord 0x1ABC#16).params.strictDecode (lastWord 0x1ABC#16).wordAtPc = .ok (.jp 0xABC#12) ∧
      ∃ t, exec (.jp 0xABC#12) (lastWord 0x1ABC#16) = .next t) ∧
    ((boot 0x00EE).fetchable ∧
      decode (boot 0x00EE).params.strictDecode (boot 0x00EE).wordAtPc = .ok (.ret 0x0E#8) ∧
      ∃ f, exec (.ret 0x0E#8) (boot 0x00EE) = .fault f) :=
  ⟨⟨by decide, by decide, exists_next (by decide)⟩, ⟨by decide, by decide, .stackUnderflow, eq_fault (by decide)⟩⟩

theorem witness_FetchPastTheEndFaults : 4095 ≤ ({ State.reset with pc := 4095#16 } : State).pc.toNat := by decide

theorem witness_StrictStepFaultsOnUnmatchedWords :
    (strictly (lastWord 0x8008#16)).fetchable ∧ (strictly (lastWord 0x8008#16)).params.strictDecode = true ∧
      matchesNoRow (strictly (lastWord 0x8008#16)).wordAtPc = true := by decide

/-- The machine with a full stack, about to run an opcode. -/
def full (op : Nat) : State := { boot op with stack := List.replicate 16 0x1000#16 }

theorem witness_StepFaultsExactlyByTheTaxonomy :
    ((full 0x2300).stack.length ≤ (full 0x2300).params.stackDepth ∧ step (full 0x2300) = .fault .stackOverflow) ∧
    ((boot 0x00EE).stack.length ≤ (boot 0x00EE).params.stackDepth ∧ step (boot 0x00EE) = .fault .stackUnderflow) ∧
    step { State.reset with pc := 4095#16 } = .fault (.memoryOutOfBounds 4095 2) ∧
    step (strictly (boot 0x5121)) = .fault (.unsupportedOpcode 0x5121#16) ∧
    step ((boot 0xD011).setI 4096#16) = .fault (.memoryOutOfBounds 4096 1) ∧
    step ((boot 0xF133).setI 4094#16) = .fault (.memoryOutOfBounds 4094 3) ∧
    step ((boot 0xF155).setI 4095#16) = .fault (.memoryOutOfBounds 4095 2) ∧
    step ((boot 0xF165).setI 4095#16) = .fault (.memoryOutOfBounds 4095 2) :=
  ⟨⟨by decide, eq_fault (by decide)⟩, ⟨by decide, eq_fault (by decide)⟩, eq_fault (by decide), eq_fault (by decide),
    eq_fault (by decide), eq_fault (by decide), eq_fault (by decide), eq_fault (by decide)⟩

/-- Memory with a RET and an operand, and a return address at its bound: a state that meets the invariant. -/
def returning : State := { boot 0x00EE with stack := [0x302#16, 0x1000#16] }

theorem returning_mem : returning.mem = [(0x201, 0xEE#8)] := by decide

theorem returning_inv : returning.Inv where
  mem_wf := by rw [returning_mem]; decide
  depth_legal := by show 1 ≤ 16; decide
  depth_bounded := by show 2 ≤ 16; decide
  entries_bounded := by show ∀ a ∈ [0x302#16, 0x1000#16], a.toNat ≤ 4096; simp
  pc_bounded := by show (0x200#16).toNat ≤ 0x10FE; simp

theorem witness_StepKeepsTheInvariant : returning.Inv ∧ ∃ t, step returning = .next t :=
  ⟨returning_inv, exists_next (by decide)⟩

theorem witness_CreateMeetsTheInvariant : Params.ok { stackDepth := 1, strictDecode := true } := by decide

theorem witness_HostSequencesKeepTheInvariant : returning.Inv := returning_inv

/-- The machine at reset but for a lit pixel: no program, and a screen to clear. -/
def litReset : State := State.reset.setFB (Framebuffer.blank.toggle 63 31)

theorem witness_ZeroedMemoryRunsToItsEnd :
    (litReset.mem = [] ∧ litReset.pc = 0x200#16 ∧ litReset.fb.pixel 63 31 = true ∧ 0 ≤ 1792 ∧ 1792 ≤ 1792) ∧
    (litReset.retire 4094#16).mem = [] ∧ (litReset.retire 4094#16).fetchable := by decide

theorem witness_CreateZeroesTheMachine :
    Params.ok { stackDepth := 1, strictDecode := true } ∧ returning.params.ok ∧
    ({ returning with params := { stackDepth := 0, strictDecode := false } } : State).params.stackDepth = 0 := by decide

theorem witness_StepTransactionReportsTheStep :
    (∃ t, step ((boot 0xE59E).offer keyA) = .next t) ∧ (∃ t, step ((boot 0xE59E).offer none) = .next t) ∧
    step ((boot 0x00EE).offer keyA) = .fault .stackUnderflow :=
  ⟨exists_next (by decide), exists_next (by decide), eq_fault (by decide)⟩

theorem witness_FaultsDoNotDependOnCollaborators :
    step ((boot 0x00EE).offer keyA) = .fault .stackUnderflow ∧
    step ((boot 0xD01F).setI 0xFFF1#16) = .fault (.memoryOutOfBounds 0xFFF1 15) :=
  ⟨eq_fault (by decide), eq_fault (by decide)⟩

theorem witness_FailedTransactionsChangeNothing :
    (transact (boot 0x00EE) (.step keyA)).2 = .err .stackUnderflow ∧
    (transact State.reset (.loadProgram [1#8, 2#8] 0xFFF)).2 = .err (.memoryOutOfBounds 0xFFF 2) ∧
    (transact { State.reset with params := { stackDepth := 0, strictDecode := false } } .create).2 =
      .refused .stackDepthZero := by decide

theorem witness_StepsDoNotTickTheTimers :
    (decode false (boot1 0xF115 1#4 9#8).wordAtPc = .ok (.ldToDelay 1#4) ∧
      after (step (boot1 0xF115 1#4 9#8)) (fun t => t.dt) = some 9#8) ∧
    (decode false (boot1 0xF118 1#4 9#8).wordAtPc = .ok (.ldToSound 1#4) ∧
      after (step (boot1 0xF118 1#4 9#8)) (fun t => t.st) = some 9#8) ∧
    (Completes (step ((boot 0x1ABC).setDT 1#8)) ∧
      ∀ x, decode false ((boot 0x1ABC).setDT 1#8).wordAtPc ≠ .ok (.ldFromDelay x) ∧
        decode false ((boot 0x1ABC).setDT 1#8).wordAtPc ≠ .ok (.ldToDelay x) ∧
        decode false ((boot 0x1ABC).setDT 1#8).wordAtPc ≠ .ok (.ldToSound x)) := by decide

theorem witness_PcAdvancesUnlessRedirected :
    State.reset.fetchable ∧
    after (exec (.ldImm 0xF#4 7#8) State.reset) (fun t => t.status) = some .executed ∧
    (Instr.ldImm 0xF#4 7#8).kind ∉ skipKinds ∧ (Instr.ldImm 0xF#4 7#8).kind ∉ transferKinds ∧
    after (exec (.ldKeypress 3#4) (State.reset.offer (some ⟨[], some 7#8, 0#8⟩))) (fun t => t.status) = some .executed ∧
    (Instr.ldKeypress 3#4).kind ∉ skipKinds ∧ (Instr.ldKeypress 3#4).kind ∉ transferKinds := by decide

theorem witness_PcAdvancesByNaturals :
    (lastWord 0xBFFF#16).fetchable ∧ returning.fetchable ∧ (∀ a ∈ returning.stack, a.toNat ≤ 4096) ∧
      after (exec (.jpOffset 0xFFF#12) (returning.setReg 0#4 0xFF#8)) (fun t => t.pc) = some 0x10FE#16 ∧
      after (exec (.ret 0#8) returning) (fun t => t.pc) = some 0x1000#16 :=
  ⟨by decide, by decide, returning_inv.entries_bounded, by decide, by decide⟩

theorem witness_ComponentsHaveTheirWriters :
    ∀ i ∈ [Instr.ldIndex 0x123#12, .ldToDelay 1#4, .ldToSound 1#4, .call 0x300#12, .ldBcd 1#4, .cls 0#8,
      .ldKeypress 1#4, .addReg 0xF#4 0#4], Completes (exec i State.reset) := by
  intro i hi
  simp only [List.mem_cons, List.not_mem_nil, or_false] at hi
  rcases hi with rfl | rfl | rfl | rfl | rfl | rfl | rfl | rfl <;> decide

theorem witness_RegistersHaveTheirWriters :
    (Completes (exec (.ldMemToRegs 0xE#4) State.reset) ∧ writesReg (.ldMemToRegs 0xE#4) 0xF#4 = false) ∧
    (Completes (exec (.subn 1#4 2#4) State.reset) ∧ writesReg (.subn 1#4 2#4) 1#4 = false) := by decide

theorem witness_RetPopsThePc :
    returning.stack = [0x302#16] ++ [0x1000#16] ∧ (boot 0x00EE).stack = [] ∧
      returning.Inv ∧ ∃ t, exec (.ret 0x0E#8) returning = .next t :=
  ⟨by decide, by decide, returning_inv, exists_next (by decide)⟩

theorem witness_CallPushesTheNextAddress :
    ({ boot 0x2300 with stack := List.replicate 15 0x302#16 } : State).stack.length <
      ({ boot 0x2300 with stack := List.replicate 15 0x302#16 } : State).params.stackDepth ∧
    (full 0x2300).stack.length = (full 0x2300).params.stackDepth := by decide

theorem witness_CallThenRetReturns :
    ∃ t u : State, exec (.call 0x300#12) returning = .next t ∧ u.stack = t.stack ∧ u.pc ≠ t.pc :=
  ⟨_, { State.reset with stack := [0x302#16, 0x1000#16, 0x202#16] }, rfl, by decide, by decide⟩

theorem witness_RegisterSkips : (0x1#4 : RegIdx) ≠ 0x0#4 ∧ (0xF#4 : RegIdx) ≠ 0x0#4 := by decide

theorem witness_KeySkips :
    (State.reset.offer keyA).answers = ⟨[0x0A#8], none, 0#8⟩ :: [] ∧
    (State.reset.offer keyA).keyPressed 0x0A#8 = true ∧ (State.reset.offer keyA).keyPressed 0xFF#8 = false ∧
    State.reset.answers = [] := by decide

theorem witness_AliasedFlagRegister :
    (0xE#4 : RegIdx) ≠ 0xF#4 ∧ (200 : Nat) = ((boot1 0x8FE4 0xE#4 200#8).reg 0xE#4).toNat ∧
      (0 : Nat) = ((boot1 0x8FE4 0xE#4 200#8).reg 0xF#4).toNat := by decide

theorem witness_RndMasksTheRandomByte :
    (State.reset.offer keyA).answers = ⟨[0x0A#8], none, 0#8⟩ :: [] ∧ State.reset.answers = [] := by decide

theorem witness_BcdStoresThreeDigits :
    (((boot 0xF133).setI 4093#16).mem.wf ∧ ((boot 0xF133).setI 4093#16).i.toNat + 2 ≤ 4095) ∧
    (((boot 0xF133).setI 4094#16).mem.wf ∧ 4095 < ((boot 0xF133).setI 4094#16).i.toNat + 2) := by decide

theorem witness_BlockStoreWritesTheRegisters :
    (((boot 0xFF55).setI 0xFF0#16).mem.wf ∧ ((boot 0xFF55).setI 0xFF0#16).i.toNat + (0xF#4 : RegIdx).toNat ≤ 4095) ∧
    (((boot 0xFF55).setI 0xFF1#16).mem.wf ∧ 4095 < ((boot 0xFF55).setI 0xFF1#16).i.toNat + (0xF#4 : RegIdx).toNat) := by
  decide

theorem witness_BlockLoadReadsTheRegisters :
    ((State.reset.setI 4095#16).i.toNat + (0x0#4 : RegIdx).toNat ≤ 4095) ∧
    (4095 < (State.reset.setI 4095#16).i.toNat + (0x1#4 : RegIdx).toNat) := by decide

theorem witness_BlockLoadUndoesBlockStore :
    ∃ t u : State, ((boot2 0xFF55 0#4 7#8 0xF#4 9#8).setI 0xFF0#16).mem.wf ∧
      exec (.ldRegsToMem 0xF#4) ((boot2 0xFF55 0#4 7#8 0xF#4 9#8).setI 0xFF0#16) = .next t ∧
      u.mem = t.mem ∧ u.i = t.i ∧ u.reg 0#4 ≠ t.reg 0#4 := by
  obtain ⟨t, ht⟩ := exists_next (o := exec (.ldRegsToMem 0xF#4) ((boot2 0xFF55 0#4 7#8 0xF#4 9#8).setI 0xFF0#16))
    (by decide)
  refine ⟨t, t.setReg 0#4 (t.reg 0#4 + 1#8), by decide, ht, rfl, rfl, ?_⟩
  rw [State.reg_setReg, if_pos rfl]
  generalize t.reg 0#4 = a
  revert a
  decide

theorem witness_DrwXorsTheSpriteIntoTheScreen :
    (0x0#4 : Nibble).toNat = 0 ∧
    (State.reset.setI 4081#16).i.toNat + (0xF#4 : Nibble).toNat - 1 ≤ 4095 ∧
    (0 < (0xF#4 : Nibble).toNat ∧ 4095 < (State.reset.setI 4082#16).i.toNat + (0xF#4 : Nibble).toNat - 1) := by decide

theorem witness_DrwReportsCollisions :
    after (exec (.drw 0#4 1#4 1#4) { withData (boot 0xD011) 0x300 [0xC0#8] with fb := Framebuffer.blank.toggle 1 0 })
      (fun t => t.reg 0xF#4) = some 1#8 ∧
    after (exec (.drw 0#4 1#4 0#4) ((boot1 0xD010 0xF#4 7#8).setI 0xFFFF#16)) (fun t => t.reg 0xF#4) = some 0#8 := by
  decide

theorem witness_DrawingTwiceRestoresTheScreen :
    (0xE#4 : RegIdx) ≠ 0xF#4 ∧ (0x0#4 : RegIdx) ≠ 0xF#4 ∧
      ∃ t, exec (.drw 0xE#4 0x0#4 1#4) (withData (boot1 0xDE01 0xE#4 60#8) 0xFFF [0xFF#8]) = .next t :=
  ⟨by decide, by decide, exists_next (by decide)⟩

theorem witness_KeypressLoadsOrWaits :
    (State.reset.offer (some ⟨[], some 0xFF#8, 0#8⟩)).keyEvent = some 0xFF#8 ∧
    (State.reset.offer keyA).keyEvent = none ∧
    (State.reset.offer keyA).answers = ⟨[0x0A#8], none, 0#8⟩ :: [] ∧ State.reset.answers = [] := by decide

theorem witness_LoadProgramCopiesItsBytes :
    (boot 0x00EE).mem.wf ∧ (([] : List Byte) = [] ∨ 0x1000 + ([] : List Byte).length - 1 ≤ 4095) ∧
    0xFFD + [1#8, 2#8, 3#8].length - 1 ≤ 4095 ∧
    ([1#8, 2#8, 3#8] ≠ [] ∧ 4095 < 0xFFE + [1#8, 2#8, 3#8].length - 1) := by decide

end Sys2Proof.Tests
end

section
/-! PROOFS. The family 10_state.md: which instruction writes which component of the machine (R34, R37 to R39, R41),
where the pc can go (R35, R36), and that the invariant holds after create and after every step. -/

namespace Sys2Proof.Machine

/-! ## The frame of an instruction -/

/-- Settles O25: RET and CALL by what they answer next, the four block accesses by the bounds check, the key wait by
the poll's answer; every other meaning is the update of its own component and a new pc. -/
theorem componentsHaveTheirWriters : Obligations.ComponentsHaveTheirWriters := by
  unfold Obligations.ComponentsHaveTheirWriters
  intro i s t h
  cases i with
  | ret g =>
    obtain ⟨rest, a, -, rfl⟩ := (execRet_next_iff g s t).mp h
    simp [Instr.kind]
  | call nnn =>
    obtain ⟨-, rfl⟩ := (execCall_next_iff nnn s t).mp h
    simp [Instr.kind]
  | drw _ _ _ | ldBcd _ | ldRegsToMem _ | ldMemToRegs _ =>
    obtain ⟨-, rfl⟩ := withBounds_next h
    simp [Instr.kind]
  | ldKeypress x =>
    obtain rfl := Host.Outcome.next.inj h
    cases s.keyEvent <;> simp [Instr.kind, State.afterKeyEvent]
  | _ =>
    obtain rfl := Host.Outcome.next.inj h
    simp [Instr.kind]

/-- M has two writers (R65). -/
theorem exec_keeps_mem {i : Instr} {s t : State} (h : exec i s = .next t)
    (hi : i.kind ∉ [Kind.LD_BCD, .LD_REGS_TO_MEM]) : t.mem = s.mem := by
  obtain ⟨-, -, -, -, hmem, -⟩ := componentsHaveTheirWriters i s t h
  exact hmem.resolve_right hi

/-- S has two writers (R39). -/
theorem exec_keeps_stack {i : Instr} {s t : State} (h : exec i s = .next t)
    (hi : i.kind ∉ [Kind.CALL, .RET]) : t.stack = s.stack := by
  obtain ⟨-, -, -, hstack, -⟩ := componentsHaveTheirWriters i s t h
  exact hstack.resolve_right hi

/-- No instruction writes the parameters (R9). -/
theorem exec_keeps_params {i : Instr} {s t : State} (h : exec i s = .next t) : t.params = s.params := by
  obtain ⟨-, -, -, -, -, -, hparams, -⟩ := componentsHaveTheirWriters i s t h
  exact hparams

/-! ## The registers -/

@[simp] theorem State.reg_setI (s : State) (w : Word) (x : RegIdx) : (s.setI w).reg x = s.reg x := rfl
@[simp] theorem State.reg_setDT (s : State) (b : Byte) (x : RegIdx) : (s.setDT b).reg x = s.reg x := rfl
@[simp] theorem State.reg_setST (s : State) (b : Byte) (x : RegIdx) : (s.setST b).reg x = s.reg x := rfl
@[simp] theorem State.reg_await (s : State) (x : RegIdx) : s.await.reg x = s.reg x := rfl

/-- The block load leaves the registers above the last one it loads (R247). -/
theorem State.reg_setRegs_of_le (s : State) (bs : List Byte) (z : RegIdx) (hb : bs.length ≤ 16)
    (hz : bs.length ≤ z.toNat) : (s.setRegs 0 bs).reg z = s.reg z := by
  rw [State.reg_setRegs s 0 bs z (by omega), List.getElem?_eq_none (by omega)]
  simp

/-- Settles O26, by the rows of R34's table: no register, V[d], VF and V[d], VF alone, V0 to V[X]. -/
theorem registersHaveTheirWriters : Obligations.RegistersHaveTheirWriters := by
  unfold Obligations.RegistersHaveTheirWriters
  intro i s t z h hz
  cases i with
  | ldImm x _ | addImm x _ | ldReg x _ | orReg x _ | andReg x _ | xorReg x _ | rnd x _ | ldFromDelay x =>
    obtain rfl := Host.Outcome.next.inj h
    have hx : z ≠ x := by simpa [writesReg] using hz
    simp [hx.symm]
  | ldKeypress x =>
    obtain rfl := Host.Outcome.next.inj h
    have hx : z ≠ x := by simpa [writesReg] using hz
    cases s.keyEvent <;> simp [State.afterKeyEvent, hx.symm]
  | addReg d _ | sub d _ | shr d _ | shl d _ | subn _ d =>
    obtain rfl := Host.Outcome.next.inj h
    obtain ⟨hd, hf⟩ : z ≠ d ∧ z ≠ regF := by simpa [writesReg, regF] using hz
    simp [hd.symm, hf.symm]
  | drw x y n =>
    obtain ⟨-, rfl⟩ := withBounds_next h
    have hf : z ≠ regF := by simpa [writesReg, regF] using hz
    simp [hf.symm]
  | ldMemToRegs x =>
    obtain ⟨-, rfl⟩ := withBounds_next h
    have hx : x.toNat < z.toNat := by simpa [writesReg] using hz
    rw [State.reg_advance]
    exact State.reg_setRegs_of_le s _ z (by simp; omega) (by simp; omega)
  | ldBcd _ | ldRegsToMem _ =>
    obtain ⟨-, rfl⟩ := withBounds_next h
    rfl
  | ret g =>
    obtain ⟨rest, a, -, rfl⟩ := (execRet_next_iff g s t).mp h
    rfl
  | call nnn =>
    obtain ⟨-, rfl⟩ := (execCall_next_iff nnn s t).mp h
    rfl
  | _ =>
    obtain rfl := Host.Outcome.next.inj h
    rfl

/-! ## The program counter -/

/-- Where an instruction can leave the pc (R136 to R138): in place where LD_KEYPRESS waits, at the next address, past a
skipped instruction, at the target of a jump or a call, at an offset target, or at a return address. -/
theorem exec_pc_cases {i : Instr} {s t : State} (h : exec i s = .next t) :
    t.pc = s.pc ∨ t.pc = s.pc + 2#16 ∨ t.pc = s.pc + 4#16 ∨ (∃ nnn, t.pc = addrWord nnn) ∨
      (∃ nnn b, t.pc = jumpOffset nnn b) ∨ t.pc ∈ s.stack := by
  cases i with
  | ret g =>
    obtain ⟨rest, a, hs, rfl⟩ := (execRet_next_iff g s t).mp h
    simp [hs]
  | call nnn =>
    obtain ⟨-, rfl⟩ := (execCall_next_iff nnn s t).mp h
    simp
  | drw _ _ _ | ldBcd _ | ldRegsToMem _ | ldMemToRegs _ =>
    obtain ⟨-, rfl⟩ := withBounds_next h
    simp
  | ldKeypress x =>
    obtain rfl := Host.Outcome.next.inj h
    cases s.keyEvent <;> simp [State.afterKeyEvent]
  | seImm _ _ | sneImm _ _ | seReg _ _ | sneReg _ _ | skp _ | sknp _ =>
    obtain rfl := Host.Outcome.next.inj h
    rw [State.skipIf_pc]
    split <;> simp
  | _ =>
    obtain rfl := Host.Outcome.next.inj h
    simp

/-- R36: from a fetchable pc, with return addresses of at most 4096, no instruction leaves a pc above 0x10FE. -/
theorem exec_pc_le {i : Instr} {s t : State} (hf : s.fetchable) (hs : ∀ a ∈ s.stack, a.toNat ≤ 4096)
    (h : exec i s = .next t) : t.pc.toNat ≤ 0x10FE := by
  have hpc : s.pc.toNat ≤ 4094 := hf
  rcases exec_pc_cases h with hw | hn | hk | ⟨nnn, hj⟩ | ⟨nnn, b, ho⟩ | hr
  · rw [hw]; omega
  · rw [hn, State.toNat_npc hf]; omega
  · rw [hk, State.toNat_skip hf]; omega
  · have := nnn.isLt
    rw [hj, toNat_addrWord]; omega
  · have := nnn.isLt
    have := b.isLt
    rw [ho, toNat_jumpOffset]; omega
  · have := hs _ hr
    omega

/-- Settles O24: the sums are natural at a fetchable pc, and every place an instruction can leave the pc is bounded. -/
theorem pcAdvancesByNaturals : Obligations.PcAdvancesByNaturals := by
  unfold Obligations.PcAdvancesByNaturals
  intro s hf
  exact ⟨State.toNat_npc hf, State.toNat_skip hf, fun _ _ hs h => exec_pc_le hf hs h⟩

/-! ## The invariant -/

/-- A completing instruction keeps the form of memory: its block write passed the bounds check (R62). -/
theorem exec_keeps_mem_wf {i : Instr} {s t : State} (hm : s.mem.wf) (h : exec i s = .next t) : t.mem.wf := by
  cases i with
  | ldBcd x =>
    obtain ⟨hb, rfl⟩ := withBounds_next h
    exact Memory.wf_writeBlock hm _ _ (hb.resolve_left (by omega))
  | ldRegsToMem x =>
    obtain ⟨hb, rfl⟩ := withBounds_next h
    exact Memory.wf_writeBlock hm _ _ (by rw [State.length_regsUpTo]; exact hb.resolve_left (by omega))
  | _ => rw [exec_keeps_mem h (by simp [Instr.kind])]; exact hm

/-- A completing instruction keeps the stack within its depth (R39): only CALL pushes, and it checks the depth. -/
theorem exec_keeps_depth_bound {i : Instr} {s t : State} (hd : s.stack.length ≤ s.params.stackDepth)
    (h : exec i s = .next t) : t.stack.length ≤ t.params.stackDepth := by
  rw [exec_keeps_params h]
  cases i with
  | ret g =>
    obtain ⟨rest, a, hs, rfl⟩ := (execRet_next_iff g s t).mp h
    rw [hs, List.length_append] at hd
    exact Nat.le_of_add_right_le hd
  | call nnn =>
    obtain ⟨hl, rfl⟩ := (execCall_next_iff nnn s t).mp h
    rw [List.length_append]
    exact hl
  | _ => rw [exec_keeps_stack h (by simp [Instr.kind])]; exact hd

/-- A completing instruction keeps the return addresses at most 4096 (R171): CALL pushes the natural pc + 2. -/
theorem exec_keeps_entries_bound {i : Instr} {s t : State} (hf : s.fetchable)
    (he : ∀ a ∈ s.stack, a.toNat ≤ 4096) (h : exec i s = .next t) : ∀ a ∈ t.stack, a.toNat ≤ 4096 := by
  cases i with
  | ret g =>
    obtain ⟨rest, a, hs, rfl⟩ := (execRet_next_iff g s t).mp h
    exact fun b hb => he b (by rw [hs]; exact List.mem_append_left _ hb)
  | call nnn =>
    obtain ⟨-, rfl⟩ := (execCall_next_iff nnn s t).mp h
    have hnpc : (s.pc + 2#16).toNat ≤ 4096 := by rw [State.toNat_npc hf]; exact Nat.add_le_add_right hf 2
    exact List.forall_mem_append.mpr ⟨he, List.forall_mem_singleton.mpr hnpc⟩
  | _ => rw [exec_keeps_stack h (by simp [Instr.kind])]; exact he

/-- An instruction at a fetchable pc keeps the invariant. -/
theorem exec_keeps_inv {i : Instr} {s t : State} (hf : s.fetchable) (hi : s.Inv) (h : exec i s = .next t) : t.Inv where
  mem_wf := exec_keeps_mem_wf hi.mem_wf h
  depth_legal := exec_keeps_params h ▸ hi.depth_legal
  depth_bounded := exec_keeps_depth_bound hi.depth_bounded h
  entries_bounded := exec_keeps_entries_bound hf hi.entries_bounded h
  pc_bounded := exec_pc_le hf hi.entries_bounded h

/-- Using up the answers of a step touches nothing the invariant speaks of. -/
theorem State.Inv.nextDraw {s : State} (h : s.Inv) : s.nextDraw.Inv :=
  ⟨h.mem_wf, h.depth_legal, h.depth_bounded, h.entries_bounded, h.pc_bounded⟩

/-- Settles O14: a step that completes has fetched at a fetchable pc, its instruction keeps the invariant part by
part, and using up the answers keeps it too. -/
theorem stepKeepsTheInvariant : Obligations.StepKeepsTheInvariant := by
  unfold Obligations.StepKeepsTheInvariant
  intro s t hi h
  obtain ⟨i, u, hfetch, hexec, rfl⟩ := step_next h
  obtain ⟨hf, -⟩ := State.fetchInstr_ok hfetch
  exact (exec_keeps_inv hf hi hexec).nextDraw

/-- The state after create meets the invariant where the depth is legal (R45, R340). -/
theorem State.inv_create {p : Params} (hp : p.ok) : (State.create p).Inv where
  mem_wf := Memory.wf_nil
  depth_legal := hp
  depth_bounded := Nat.zero_le _
  entries_bounded := fun _ ha => absurd ha List.not_mem_nil
  pc_bounded := by rw [State.create_pc]; decide

/-- Settles O15: reset is create with the default parameters, whose depth 16 is legal. -/
theorem createMeetsTheInvariant : Obligations.CreateMeetsTheInvariant := by
  unfold Obligations.CreateMeetsTheInvariant
  exact ⟨State.inv_create (by decide), fun _ hp => State.inv_create hp⟩

/-! ## Create -/

/-- Settles O17: the components one by one, then the depth check in front of both creations. -/
theorem createZeroesTheMachine : Obligations.CreateZeroesTheMachine := by
  unfold Obligations.CreateZeroesTheMachine
  intro p
  refine ⟨fun x => ?_, rfl, rfl, rfl, rfl, rfl, Memory.read_nil, Framebuffer.pixel_blank, rfl, rfl, ?_, ?_, ?_, ?_⟩
  · simp [State.reg_eq]
  · exact requireDepth_of_zero rfl _
  · exact fun hp => requireDepth_of_ok hp _
  · intro s hs
    rw [transact, requireDepth_of_ok hs, settle_next]
    rfl
  · intro s hs
    rw [transact, requireDepth_of_zero hs, settle_refused]

/-! ## The status field -/

/-- The block load and a write of the status field commute. -/
theorem State.setRegs_status_update (s : State) (status : Status) (start : Nat) (bs : List Byte) :
    ({ s with status := status } : State).setRegs start bs = { s.setRegs start bs with status := status } := by
  induction bs generalizing s start with
  | nil => rfl
  | cons b bs ih => exact ih (s.setReg (BitVec.ofNat 4 start) b) (start + 1)

/-- No meaning reads the status field: where the instruction completes, retire or await writes it anew (R131). -/
theorem exec_status_update (i : Instr) (s : State) (status : Status) :
    exec i { s with status := status } = exec i s := by
  cases i with
  | ret g =>
    simp only [exec, execRet, State.pop?]
    cases s.stack.getLast? <;> rfl
  | call nnn =>
    simp only [exec, execCall, State.push?]
    by_cases hl : s.params.stackDepth ≤ s.stack.length
    · simp only [if_pos hl]
    · simp only [if_neg hl]
      rfl
  | ldKeypress x =>
    show Host.Outcome.next (State.afterKeyEvent _ x s.keyEvent) = .next (s.afterKeyEvent x s.keyEvent)
    cases s.keyEvent <;> rfl
  | ldMemToRegs x =>
    simp only [exec, execLdMemToRegs, State.setRegs_status_update]
    rfl
  | _ => rfl

/-- Settles O19: neither the fetch nor a meaning reads the status field. -/
theorem statusIsNeverRead : Obligations.StatusIsNeverRead := by
  unfold Obligations.StatusIsNeverRead
  intro s status
  have hfetch : ({ s with status := status } : State).fetchInstr = s.fetchInstr := rfl
  simp only [step, hfetch, exec_status_update]

/-! ## The timers -/

/-- Settles O57, by induction on the number of ticks: a tick lowers each timer by 1, floor 0, and reports Ok. -/
theorem ticksCountDownToZero : Obligations.TicksCountDownToZero := by
  unfold Obligations.TicksCountDownToZero
  intro k
  induction k with
  | zero => exact fun s => ⟨s.dt, s.st, rfl, rfl, rfl⟩
  | succ k ih =>
    intro s
    obtain ⟨d, e, hd, he, hrun⟩ := ih s.tickTimers
    rw [State.tickTimers_dt, toNat_tickByte] at hd
    rw [State.tickTimers_st, toNat_tickByte] at he
    refine ⟨d, e, by omega, by omega, ?_⟩
    simp only [List.replicate_succ, runHost, transact, hrun]
    rfl

end Sys2Proof.Machine
end

section
/-! PROOFS. The family 30_encoding.md: the decoder (R99 to R107), the encoder and the rows of opcode_table.json (R113)
agree on every word. The round trip from a word and the comparison with the table are read off one lemma,
`decode_answers`, which says what the decoder can answer. -/

namespace Sys2Proof

/-! ## Well-formed and allowed terms -/

theorem wellFormed_sys_iff (nnn : Addr12) :
    WellFormed (.sys nnn) ↔ nnn.extractLsb' 0 4 ≠ 0x0#4 ∧ nnn.extractLsb' 0 4 ≠ 0xE#4 := by
  rw [← not_or, WellFormed, checkInstr]
  split <;> simp [*]

theorem wellFormed_sysUnmatched_iff (op : Word) : WellFormed (.sysUnmatched op) ↔ matchesNoRow op = true := by
  rw [WellFormed, checkInstr]
  split <;> simp [*]

/-- Whatever strict decode may answer, the default may answer too. -/
theorem Instr.allowed_of_allowed_true {i : Instr} (h : i.allowed true = true) (strict : Bool) :
    i.allowed strict = true := by
  cases i with
  | sysUnmatched op => cases h
  | _ => rfl

/-! ## Fields within fields -/

/-- N3 is the low nibble of NNN. -/
theorem opNNN_low (op : Word) : (opNNN op).extractLsb' 0 4 = opN3 op := by
  apply BitVec.eq_of_toNat_eq
  simp only [opNNN, opN3, BitVec.extractLsb'_toNat, Nat.shiftRight_eq_div_pow]
  omega

/-- N3 is the low nibble of KK. -/
theorem opKK_low (op : Word) : (opKK op).extractLsb' 0 4 = opN3 op := by
  apply BitVec.eq_of_toNat_eq
  simp only [opKK, opN3, BitVec.extractLsb'_toNat, Nat.shiftRight_eq_div_pow]
  omega

theorem opN3_concat (a : Nibble) (nnn : Addr12) : opN3 (a ++ nnn) = nnn.extractLsb' 0 4 := by
  rw [← opNNN_low, opNNN_concat]

/-- Group 0xF is what is left of the nibbles once the other groups are tried. -/
theorem nibble_eq_F_of_not_mem : ∀ a : Nibble, a ∉ [0x0#4, 0x1#4, 0x2#4, 0x3#4, 0x4#4, 0x5#4, 0x6#4, 0x7#4, 0x8#4,
    0x9#4, 0xA#4, 0xB#4, 0xC#4, 0xD#4, 0xE#4] → a = 0xF#4 := by decide

/-! ## A word from the fields that its row fixes -/

theorem concat_of_opN0 {op : Word} {a : Nibble} (h : opN0 op = a) : a ++ opNNN op = op := by
  subst h; exact concat_opN0_opNNN op

theorem concat3_of_opN0_opKK {op : Word} {a : Nibble} {k : Byte} (h : opN0 op = a) (hk : opKK op = k) :
    a ++ opN1 op ++ k = op := by
  subst h hk; exact concat_opN0_opN1_opKK op

theorem concat4_of_opN0_opN3 {op : Word} {a n : Nibble} (h : opN0 op = a) (hn : opN3 op = n) :
    a ++ opN1 op ++ opN2 op ++ n = op := by
  subst h hn; exact concat_opN0_opN1_opN2_opN3 op

theorem concat_ignored_of_opN0_opN3 {op : Word} {a n : Nibble} (h : opN0 op = a) (hn : opN3 op = n) :
    a ++ opN12 op ++ n = op := by
  subst h hn; exact concat_opN0_opN12_opN3 op

/-! ## The groups that are decoded further -/

theorem decode_group0 {op : Word} (h : opN0 op = 0x0#4) (strict : Bool) : decode strict op = decodeGroup0 op := by
  simp only [decode, h]

theorem decode_group8 {op : Word} (h : opN0 op = 0x8#4) (strict : Bool) :
    decode strict op = decodeGroup8 strict op := by
  simp only [decode, h]

theorem decode_groupE {op : Word} (h : opN0 op = 0xE#4) (strict : Bool) :
    decode strict op = decodeGroupE strict op := by
  simp only [decode, h]

theorem decode_groupF {op : Word} (h : opN0 op = 0xF#4) (strict : Bool) :
    decode strict op = decodeGroupF strict op := by
  rw [decode, h]
  rfl

/-! ## The words that match no row -/

/-- Whether a word matches a row is seen from N0 and KK alone. -/
theorem matchesNoRow_of_opN0 {op : Word} {a : Nibble} (h : opN0 op = a) :
    matchesNoRow op = matchesNoRow (a ++ 0x0#4 ++ opKK op) := by
  have hrow : tableRow (a ++ opN1 op ++ opKK op) = tableRow (a ++ 0x0#4 ++ opKK op) :=
    tableRow_congr (by rw [and_mask_concat3, and_mask_concat3])
  rw [concat3_of_opN0_opKK h rfl] at hrow
  rw [matchesNoRow, matchesNoRow, hrow]

/-- Every word of group 0x0 has a row: the group-0x0 SYS row at the latest. -/
theorem matchesNoRow_group0 {op : Word} (h : opN0 op = 0x0#4) : matchesNoRow op = false := by
  have hk : ∀ k : Byte, matchesNoRow (0x0#4 ++ 0x0#4 ++ k) = false := by decide
  rw [matchesNoRow_of_opN0 h, hk]

theorem matchesNoRow_group5 {op : Word} (h : opN0 op = 0x5#4) (hn : opN3 op ≠ 0x0#4) : matchesNoRow op = true := by
  have hk : ∀ k : Byte, k.extractLsb' 0 4 ≠ 0x0#4 → matchesNoRow (0x5#4 ++ 0x0#4 ++ k) = true := by decide
  rw [matchesNoRow_of_opN0 h, hk _ (by rwa [opKK_low])]

theorem matchesNoRow_group8 {op : Word} (h : opN0 op = 0x8#4)
    (hn : opN3 op ∉ [0x0#4, 0x1#4, 0x2#4, 0x3#4, 0x4#4, 0x5#4, 0x6#4, 0x7#4, 0xE#4]) : matchesNoRow op = true := by
  have hk : ∀ k : Byte, k.extractLsb' 0 4 ∉ [0x0#4, 0x1#4, 0x2#4, 0x3#4, 0x4#4, 0x5#4, 0x6#4, 0x7#4, 0xE#4] →
      matchesNoRow (0x8#4 ++ 0x0#4 ++ k) = true := by decide
  rw [matchesNoRow_of_opN0 h, hk _ (by rwa [opKK_low])]

theorem matchesNoRow_group9 {op : Word} (h : opN0 op = 0x9#4) (hn : opN3 op ≠ 0x0#4) : matchesNoRow op = true := by
  have hk : ∀ k : Byte, k.extractLsb' 0 4 ≠ 0x0#4 → matchesNoRow (0x9#4 ++ 0x0#4 ++ k) = true := by decide
  rw [matchesNoRow_of_opN0 h, hk _ (by rwa [opKK_low])]

theorem matchesNoRow_groupE {op : Word} (h : opN0 op = 0xE#4) (hn : opKK op ∉ [0x9E#8, 0xA1#8]) :
    matchesNoRow op = true := by
  have hk : ∀ k : Byte, k ∉ [0x9E#8, 0xA1#8] → matchesNoRow (0xE#4 ++ 0x0#4 ++ k) = true := by decide
  rw [matchesNoRow_of_opN0 h, hk _ hn]

theorem matchesNoRow_groupF {op : Word} (h : opN0 op = 0xF#4)
    (hn : opKK op ∉ [0x07#8, 0x0A#8, 0x15#8, 0x18#8, 0x1E#8, 0x29#8, 0x33#8, 0x55#8, 0x65#8]) :
    matchesNoRow op = true := by
  have hk : ∀ k : Byte, k ∉ [0x07#8, 0x0A#8, 0x15#8, 0x18#8, 0x1E#8, 0x29#8, 0x33#8, 0x55#8, 0x65#8] →
      matchesNoRow (0xF#4 ++ 0x0#4 ++ k) = true := by decide
  rw [matchesNoRow_of_opN0 h, hk _ hn]

/-! ## What the decoder can answer -/

/-- The two ways to answer a word: with the well-formed instruction that the word encodes, no fallback SYS; or with
R107's UNMATCHED, for a word that matches no row. -/
inductive DecodeAnswer (strict : Bool) (op : Word) : Except DecodeError Instr → Prop
  | row {i : Instr} (hop : encode i = op) (hwf : WellFormed i) (hi : i.allowed true = true) :
      DecodeAnswer strict op (.ok i)
  | fallback (hop : matchesNoRow op = true) : DecodeAnswer strict op (unmatched strict op)

section
variable {strict : Bool} {op : Word}

theorem decodeGroup0_answers (h : opN0 op = 0x0#4) : DecodeAnswer strict op (decodeGroup0 op) := by
  unfold decodeGroup0
  split
  · next hn => exact .row (concat_ignored_of_opN0_opN3 h hn) rfl rfl
  · next hn => exact .row (concat_ignored_of_opN0_opN3 h hn) rfl rfl
  · next h0 hE =>
    refine .row (concat_of_opN0 h) ((wellFormed_sys_iff _).mpr ?_) rfl
    rw [opNNN_low]
    exact ⟨h0, hE⟩

theorem decodeGroup8_answers (h : opN0 op = 0x8#4) : DecodeAnswer strict op (decodeGroup8 strict op) := by
  unfold decodeGroup8
  split
  iterate 9 next hn => exact .row (concat4_of_opN0_opN3 h hn) rfl rfl
  exact .fallback (matchesNoRow_group8 h (by simp_all))

theorem decodeGroupE_answers (h : opN0 op = 0xE#4) : DecodeAnswer strict op (decodeGroupE strict op) := by
  unfold decodeGroupE
  split
  iterate 2 next hk => exact .row (concat3_of_opN0_opKK h hk) rfl rfl
  exact .fallback (matchesNoRow_groupE h (by simp_all))

theorem decodeGroupF_answers (h : opN0 op = 0xF#4) : DecodeAnswer strict op (decodeGroupF strict op) := by
  unfold decodeGroupF
  split
  iterate 9 next hk => exact .row (concat3_of_opN0_opKK h hk) rfl rfl
  exact .fallback (matchesNoRow_groupF h (by simp_all))

end

/-- Every answer of the decoder is of one of the two ways, group by group in the order of R107. -/
theorem decode_answers (strict : Bool) (op : Word) : DecodeAnswer strict op (decode strict op) := by
  unfold decode
  split
  · next h => exact decodeGroup0_answers h
  · next h => exact .row (concat_of_opN0 h) rfl rfl
  · next h => exact .row (concat_of_opN0 h) rfl rfl
  · next h => exact .row (concat3_of_opN0_opKK h rfl) rfl rfl
  · next h => exact .row (concat3_of_opN0_opKK h rfl) rfl rfl
  · next h =>
    split
    · next hn => exact .row (concat4_of_opN0_opN3 h hn) rfl rfl
    · next hn => exact .fallback (matchesNoRow_group5 h hn)
  · next h => exact .row (concat3_of_opN0_opKK h rfl) rfl rfl
  · next h => exact .row (concat3_of_opN0_opKK h rfl) rfl rfl
  · next h => exact decodeGroup8_answers h
  · next h =>
    split
    · next hn => exact .row (concat4_of_opN0_opN3 h hn) rfl rfl
    · next hn => exact .fallback (matchesNoRow_group9 h hn)
  · next h => exact .row (concat_of_opN0 h) rfl rfl
  · next h => exact .row (concat_of_opN0 h) rfl rfl
  · next h => exact .row (concat3_of_opN0_opKK h rfl) rfl rfl
  · next h => exact .row (concat4_of_opN0_opN3 h rfl) rfl rfl
  · next h => exact decodeGroupE_answers h
  · exact decodeGroupF_answers (nibble_eq_F_of_not_mem _ (by simp_all))

/-! ## The table's kind of an encoded instruction -/

/-- The family RowMatch put together. -/
theorem tableKind_false_encode : ∀ i : Instr, WellFormed i → tableKind false (encode i) = some i.kind
  | .cls g => Laws.RowMatch.cls g
  | .ret g => Laws.RowMatch.ret g
  | .jp nnn => Laws.RowMatch.jp nnn
  | .call nnn => Laws.RowMatch.call nnn
  | .seImm x kk => Laws.RowMatch.seImm x kk
  | .sneImm x kk => Laws.RowMatch.sneImm x kk
  | .seReg x y => Laws.RowMatch.seReg x y
  | .ldImm x kk => Laws.RowMatch.ldImm x kk
  | .addImm x kk => Laws.RowMatch.addImm x kk
  | .ldReg x y => Laws.RowMatch.ldReg x y
  | .orReg x y => Laws.RowMatch.orReg x y
  | .andReg x y => Laws.RowMatch.andReg x y
  | .xorReg x y => Laws.RowMatch.xorReg x y
  | .addReg x y => Laws.RowMatch.addReg x y
  | .sub x y => Laws.RowMatch.sub x y
  | .shr x y => Laws.RowMatch.shr x y
  | .subn x y => Laws.RowMatch.subn x y
  | .shl x y => Laws.RowMatch.shl x y
  | .sneReg x y => Laws.RowMatch.sneReg x y
  | .ldIndex nnn => Laws.RowMatch.ldIndex nnn
  | .jpOffset nnn => Laws.RowMatch.jpOffset nnn
  | .rnd x kk => Laws.RowMatch.rnd x kk
  | .drw x y n => Laws.RowMatch.drw x y n
  | .skp x => Laws.RowMatch.skp x
  | .sknp x => Laws.RowMatch.sknp x
  | .ldFromDelay x => Laws.RowMatch.ldFromDelay x
  | .ldKeypress x => Laws.RowMatch.ldKeypress x
  | .ldToDelay x => Laws.RowMatch.ldToDelay x
  | .ldToSound x => Laws.RowMatch.ldToSound x
  | .addIndex x => Laws.RowMatch.addIndex x
  | .ldSpriteAddr x => Laws.RowMatch.ldSpriteAddr x
  | .ldBcd x => Laws.RowMatch.ldBcd x
  | .ldRegsToMem x => Laws.RowMatch.ldRegsToMem x
  | .ldMemToRegs x => Laws.RowMatch.ldMemToRegs x
  | .sys nnn => Laws.RowMatch.sys nnn
  | .sysUnmatched op => Laws.RowMatch.sysUnmatched op

/-- A word that matches no row has the fallback's kind, or none under strict decode (R104, R105). -/
theorem tableKind_of_matchesNoRow {op : Word} (h : matchesNoRow op = true) (strict : Bool) :
    tableKind strict op = if strict then none else some .SYS := by
  rw [tableKind, Option.isNone_iff_eq_none.mp h]

/-- The decode policy is of no matter to a word that matches a row. -/
theorem tableKind_eq_of_matchesNoRow_eq_false {op : Word} (h : matchesNoRow op = false) (strict : Bool) :
    tableKind strict op = tableKind false op := by
  obtain ⟨r, hr⟩ := Option.isSome_iff_exists.mp (Option.isNone_eq_false_iff.mp h)
  rw [tableKind, tableKind, hr]

/-- The word of every instruction but the fallback SYS matches a row: the only other one of the kind SYS lies in group
0x0. -/
theorem matchesNoRow_encode {i : Instr} (hwf : WellFormed i) (hi : i.allowed true = true) :
    matchesNoRow (encode i) = false := by
  by_contra hm
  have hkind := tableKind_false_encode i hwf
  rw [tableKind_of_matchesNoRow (by simpa using hm)] at hkind
  cases i with
  | sys nnn => exact hm (matchesNoRow_group0 (opN0_concat ..))
  | sysUnmatched op => cases hi
  | _ => cases hkind

/-! ## The round trips -/

/-- Settles O3: both ways the decoder can answer give the word back. -/
theorem encodeOfDecodeIsTheWord : Obligations.EncodeOfDecodeIsTheWord := by
  unfold Obligations.EncodeOfDecodeIsTheWord
  intro strict op i h
  have hans := decode_answers strict op
  generalize decode strict op = answer at h hans
  cases hans with
  | row hop hwf hi =>
    obtain rfl := Except.ok.inj h
    exact ⟨hop, hwf, Instr.allowed_of_allowed_true hi strict⟩
  | fallback hop =>
    cases strict with
    | true => cases h
    | false =>
      obtain rfl := Except.ok.inj h
      exact ⟨rfl, (wellFormed_sysUnmatched_iff op).mpr hop, rfl⟩

/-- A word that matches no row is R107's UNMATCHED. -/
theorem decode_of_matchesNoRow {op : Word} (h : matchesNoRow op = true) (strict : Bool) :
    decode strict op = unmatched strict op := by
  have hans := decode_answers strict op
  generalize decode strict op = answer at hans
  cases hans with
  | row hop hwf hi =>
    subst hop
    rw [matchesNoRow_encode hwf hi] at h
    cases h
  | fallback => rfl

/-- A well-formed instruction that the decoder may answer is what its word decodes to: N0 selects the group, and within
a group N3 or KK selects the row. -/
theorem decode_encode {strict : Bool} {i : Instr} (hwf : WellFormed i) (hi : i.allowed strict = true) :
    decode strict (encode i) = .ok i := by
  cases i with
  | cls g | ret g =>
    rw [encode, decode_group0 (opN0_concat_ignored ..)]
    simp only [decodeGroup0, opN3_concat_ignored, opN12_concat_ignored]
  | jp nnn | call nnn | ldIndex nnn | jpOffset nnn =>
    simp only [encode, decode, opN0_concat, opNNN_concat]
  | seImm x kk | sneImm x kk | ldImm x kk | addImm x kk | rnd x kk =>
    simp only [encode, decode, opN0_concat3, opN1_concat3, opKK_concat3]
  | seReg x y | sneReg x y =>
    simp only [encode, decode, opN0_concat4, opN1_concat4, opN2_concat4, opN3_concat4, if_true]
  | ldReg x y | orReg x y | andReg x y | xorReg x y | addReg x y | sub x y | shr x y | subn x y | shl x y =>
    rw [encode, decode_group8 (opN0_concat4 ..)]
    simp only [decodeGroup8, opN1_concat4, opN2_concat4, opN3_concat4]
  | drw x y n =>
    simp only [encode, decode, opN0_concat4, opN1_concat4, opN2_concat4, opN3_concat4]
  | skp x | sknp x =>
    rw [encode, decode_groupE (opN0_concat3 ..)]
    simp only [decodeGroupE, opN1_concat3, opKK_concat3]
  | ldFromDelay x | ldKeypress x | ldToDelay x | ldToSound x | addIndex x | ldSpriteAddr x | ldBcd x | ldRegsToMem x
  | ldMemToRegs x =>
    rw [encode, decode_groupF (opN0_concat3 ..)]
    simp only [decodeGroupF, opN1_concat3, opKK_concat3]
  | sys nnn =>
    obtain ⟨h0, hE⟩ := (wellFormed_sys_iff nnn).mp hwf
    rw [encode, decode_group0 (opN0_concat ..)]
    simp only [decodeGroup0, opN3_concat, opNNN_concat]
  | sysUnmatched op =>
    rw [encode, decode_of_matchesNoRow ((wellFormed_sysUnmatched_iff op).mp hwf), unmatched, if_neg]
    simpa [Instr.allowed] using hi

/-- Decoding the bytes of a word is decoding the word (R60). -/
theorem decodeBytes_encodeBytes_append (strict : Bool) (i : Instr) (rest : List Byte) :
    decodeBytes strict (encodeBytes i ++ rest) = (decode strict (encode i)).map fun j => (j, rest) := by
  simp [encodeBytes, decodeBytes]

/-- Settles O2: the word decodes to the instruction, and the bytes make the word. -/
theorem decodeOfEncodeIsTheInstruction : Obligations.DecodeOfEncodeIsTheInstruction := by
  unfold Obligations.DecodeOfEncodeIsTheInstruction
  intro strict i rest hwf hi
  have hdec := decode_encode hwf hi
  refine ⟨hdec, ?_⟩
  rw [decodeBytes_encodeBytes_append, hdec]
  rfl

/-! ## The decoder and the table -/

/-- Settles O4: the word of a row's instruction has the instruction's kind in the table, and on the other words both
fall back alike. -/
theorem decoderAgreesWithTheOpcodeTable : Obligations.DecoderAgreesWithTheOpcodeTable := by
  unfold Obligations.DecoderAgreesWithTheOpcodeTable
  intro strict op
  have hans := decode_answers strict op
  generalize decode strict op = answer at hans
  cases hans with
  | row hop hwf hi =>
    subst hop
    rw [tableKind_eq_of_matchesNoRow_eq_false (matchesNoRow_encode hwf hi), tableKind_false_encode _ hwf]
    rfl
  | fallback hop =>
    rw [tableKind_of_matchesNoRow hop]
    cases strict <;> rfl

/-- The default policy rejects no word (R104). -/
theorem exists_decode_false (op : Word) : ∃ i, decode false op = .ok i := by
  cases h : decode false op with
  | ok i => exact ⟨i, rfl⟩
  | error e =>
    obtain ⟨hstrict, -⟩ := decode_error h
    cases hstrict

/-- Settles O5: UNMATCHED is SYS by default, and SYS only advances the pc. -/
theorem unmatchedWordsExecuteAsSys : Obligations.UnmatchedWordsExecuteAsSys := by
  unfold Obligations.UnmatchedWordsExecuteAsSys
  exact ⟨exists_decode_false, fun _ _ h => ⟨decode_of_matchesNoRow h false, rfl, rfl⟩⟩

/-- Settles O6: a word with a row is answered alike under both policies, since the fallback SYS is well-formed on
the other words only. -/
theorem strictDecodeRejectsExactlyUnmatchedWords : Obligations.StrictDecodeRejectsExactlyUnmatchedWords := by
  unfold Obligations.StrictDecodeRejectsExactlyUnmatchedWords
  intro op
  refine ⟨fun h => decode_of_matchesNoRow h true, fun h => ?_⟩
  cases hdec : decode true op with
  | ok i => exact ⟨(decode_false_of_strict_ok hdec).symm, i, rfl⟩
  | error e =>
    obtain ⟨-, hwf, -⟩ := encodeOfDecodeIsTheWord false op _ (decode_false_of_strict_error hdec)
    rw [wellFormed_sysUnmatched_iff, h] at hwf
    cases hwf

/-- Settles O7: N0 = 0 selects the group, and N3 alone the row in it. -/
theorem groupZeroDecodesOnItsLowNibble : Obligations.GroupZeroDecodesOnItsLowNibble := by
  unfold Obligations.GroupZeroDecodesOnItsLowNibble
  intro strict op h
  rw [decode_group0 h]
  refine ⟨fun hn => ?_, fun hn => ?_, fun h0 hE => ?_⟩
  · simp only [decodeGroup0, hn]
  · simp only [decodeGroup0, hn]
  · simp only [decodeGroup0]

/-! ## The ignored bits -/

/-- Settles O8: the six meanings do not look at the bits that their rows ignore. -/
theorem ignoredBitsDoNotMatter : Obligations.IgnoredBitsDoNotMatter := by
  unfold Obligations.IgnoredBitsDoNotMatter
  intro s g h m n v w x y z
  exact ⟨rfl, rfl, rfl, rfl, rfl, rfl⟩

end Sys2Proof
end

section
/-! PROOFS. The family 40_cycle_driver.md: the step from fetch to commit (R130 to R146), the host's other transactions
tick_timers and load_program (R150 to R153), and the sequences of transactions (R155). -/

namespace Sys2Proof.Machine

/-! ## Commit, and the step by what the fetch answers -/

@[simp] theorem commit_next (t : State) : commit (.next t) = .next t.nextDraw := rfl
@[simp] theorem commit_fault (f : Fault) : commit (.fault f) = .fault f := rfl

/-- A fault of the fetch is the step's fault (R133, R135). -/
theorem step_of_fetch_error {s : State} {f : Fault} (h : s.fetchInstr = .error f) : step s = .fault f := by
  rw [step, h]
  rfl

/-- A step runs the fetched instruction and commits what it answers (R139, R143). -/
theorem step_of_fetch_ok {s : State} {i : Instr} (h : s.fetchInstr = .ok i) : step s = commit (exec i s) := by
  rw [step, h]

/-- The fetch answers what the word at a fetchable pc decodes to (R132, R134). -/
theorem State.fetchInstr_of_decode_ok {s : State} {i : Instr} (hf : s.fetchable)
    (hd : decode s.params.strictDecode s.wordAtPc = .ok i) : s.fetchInstr = .ok i := by
  rw [State.fetchInstr_of_fetchable hf, hd]

/-! ## What a sequence of transactions keeps -/

/-- The invariant speaks of memory, the parameters, the stack and the pc alone. -/
theorem State.Inv.of_eq {s t : State} (h : s.Inv) (hmem : t.mem = s.mem) (hparams : t.params = s.params)
    (hstack : t.stack = s.stack) (hpc : t.pc = s.pc) : t.Inv where
  mem_wf := hmem ▸ h.mem_wf
  depth_legal := hparams ▸ h.depth_legal
  depth_bounded := by rw [hstack, hparams]; exact h.depth_bounded
  entries_bounded := hstack ▸ h.entries_bounded
  pc_bounded := hpc ▸ h.pc_bounded

theorem State.Inv.offer {s : State} (h : s.Inv) (inputs : Option Answers) : (s.offer inputs).Inv :=
  h.of_eq (State.offer_mem s inputs) (State.offer_params s inputs) (State.offer_stack s inputs)
    (State.offer_pc s inputs)

theorem State.Inv.tickTimers {s : State} (h : s.Inv) : s.tickTimers.Inv := h.of_eq rfl rfl rfl rfl

/-- A host reset keeps the parameters, and with them the legal depth (R340). -/
theorem State.Inv.recreated {s : State} (h : s.Inv) : s.recreated.Inv :=
  (State.inv_create h.depth_legal).of_eq rfl rfl rfl rfl

/-- A load that passes the bounds check keeps the invariant (R152, R153). -/
theorem loadProgram_keeps_inv {s t : State} {bytes : List Byte} {origin : Nat} (hi : s.Inv)
    (h : s.loadProgram bytes origin = .next t) : t.Inv := by
  obtain ⟨hb, rfl⟩ := withBounds_next h
  have hwf : (s.mem.writeBlock origin bytes).wf := by
    rcases hb with hnil | hle
    · rw [List.eq_nil_of_length_eq_zero hnil]
      exact hi.mem_wf
    · exact Memory.wf_writeBlock hi.mem_wf origin bytes hle
  exact ⟨hwf, hi.depth_legal, hi.depth_bounded, hi.entries_bounded, hi.pc_bounded⟩

/-- Where a transaction fails the machine stays (R316), so the invariant asks something of its success alone. -/
theorem settle_keeps_inv {s : State} {g : State → Report} {r : Result} (hi : s.Inv)
    (hr : ∀ t, r = .next t → t.Inv) : (settle s g r).1.Inv := by
  cases r with
  | next t => exact hr t rfl
  | fault f => exact hi
  | refused q => exact hi

/-- Every transaction keeps the invariant (R154). -/
theorem transact_keeps_inv {s : State} (hi : s.Inv) (tr : Transaction) : (transact s tr).1.Inv := by
  cases tr with
  | create =>
    rw [transact, requireDepth_of_ok hi.depth_legal]
    exact hi.recreated
  | step inputs => exact settle_keeps_inv hi fun t h => stepKeepsTheInvariant _ t (hi.offer inputs) h
  | tickTimers => exact hi.tickTimers
  | loadProgram bytes origin => exact settle_keeps_inv hi fun _ h => loadProgram_keeps_inv hi h

/-- Settles O16, by induction on the sequence: each transaction keeps the invariant. -/
theorem hostSequencesKeepTheInvariant : Obligations.HostSequencesKeepTheInvariant := by
  unfold Obligations.HostSequencesKeepTheInvariant
  intro s ts
  induction ts generalizing s with
  | nil => exact id
  | cons tr ts ih => exact fun hi => ih (transact s tr).1 (transact_keeps_inv hi tr)

/-! ## The step and the decoded instruction -/

/-- Settles O9: the fetch answers the decoded instruction, commit adds that the answers are used up, and no meaning
refuses. -/
theorem stepRunsTheDecodedInstruction : Obligations.StepRunsTheDecodedInstruction := by
  unfold Obligations.StepRunsTheDecodedInstruction
  intro s i hf hd
  have hstep : step s = commit (exec i s) := step_of_fetch_ok (State.fetchInstr_of_decode_ok hf hd)
  refine ⟨fun t h => ?_, fun f h => ?_, exec_ne_refused i s⟩
  · rw [hstep, h]
    rfl
  · rw [hstep, h, commit_fault]

/-- Settles O10: the fetch bound comes first. -/
theorem fetchPastTheEndFaults : Obligations.FetchPastTheEndFaults := by
  unfold Obligations.FetchPastTheEndFaults
  exact fun s h => step_of_fetch_error (State.fetchInstr_of_gt h)

/-- Settles O11: strict decode answers `unsupported` on such a word, and the fetch turns that into the fault. -/
theorem strictStepFaultsOnUnmatchedWords : Obligations.StrictStepFaultsOnUnmatchedWords := by
  unfold Obligations.StrictStepFaultsOnUnmatchedWords
  intro s hf hstrict hrow
  apply step_of_fetch_error
  rw [State.fetchInstr_of_fetchable hf, decode_of_matchesNoRow hrow, hstrict]
  rfl

/-- Settles O13: the fetch answers a fault or an instruction, and no meaning refuses. -/
theorem stepNeverRefuses : Obligations.StepNeverRefuses := by
  unfold Obligations.StepNeverRefuses
  intro s r
  cases hfetch : s.fetchInstr with
  | error f =>
    rw [step_of_fetch_error hfetch]
    exact nofun
  | ok i =>
    rw [step_of_fetch_ok hfetch]
    cases hexec : exec i s with
    | next t => exact nofun
    | fault f => exact nofun
    | refused q => exact absurd hexec (exec_ne_refused i s q)

/-! ## Faults and the collaborators -/

/-- RET faults exactly on the empty stack (R171, R313). -/
theorem execRet_fault_iff (g : BitVec 8) (s : State) (f : Fault) :
    execRet g s = .fault f ↔ s.stack = [] ∧ f = .stackUnderflow := by
  rw [← State.pop?_eq_none_iff, execRet]
  cases s.pop? with
  | none => simp [raise, eq_comm]
  | some w => simp

/-- CALL faults exactly on a full stack (R173, R312). -/
theorem execCall_fault_iff (nnn : Addr12) (s : State) (f : Fault) :
    execCall nnn s = .fault f ↔ s.params.stackDepth ≤ s.stack.length ∧ f = .stackOverflow := by
  rw [← State.push?_eq_none_iff s s.npc, execCall]
  cases s.push? s.npc with
  | none => simp [raise, eq_comm]
  | some t => simp

/-- A block access faults whatever its result would have been (R243). -/
theorem withBounds_fault_congr {a n : Nat} {r : State} {f : Fault} (h : withBounds a n r = .fault f) (r' : State) :
    withBounds a n r' = .fault f := by
  obtain ⟨hn, hgt, rfl⟩ := withBounds_fault h
  exact withBounds_of_gt hn hgt r'

/-- Whether a meaning faults is decided by the stack, the depth and I: no faulting path asks a collaborator (R146). -/
theorem exec_fault_of_collaborators {i : Instr} {s : State} {f : Fault} (h : exec i s = .fault f)
    (answers : List Answers) (draws : Nat) :
    exec i { s with answers := answers, draws := draws } = .fault f := by
  cases i with
  | ret g => exact (execRet_fault_iff g _ f).mpr ((execRet_fault_iff g s f).mp h)
  | call nnn => exact (execCall_fault_iff nnn _ f).mpr ((execCall_fault_iff nnn s f).mp h)
  | drw _ _ _ | ldBcd _ | ldRegsToMem _ | ldMemToRegs _ => exact withBounds_fault_congr h _
  | _ => injection h

/-- Settles O20: the fetch reads memory, the pc and the parameters, and the meanings fault without asking. -/
theorem faultsDoNotDependOnCollaborators : Obligations.FaultsDoNotDependOnCollaborators := by
  unfold Obligations.FaultsDoNotDependOnCollaborators
  intro s f answers draws h
  have hsame : ({ s with answers := answers, draws := draws } : State).fetchInstr = s.fetchInstr := rfl
  rcases step_fault h with hfetch | ⟨i, hfetch, hexec⟩
  · exact step_of_fetch_error (hsame.trans hfetch)
  · rw [step_of_fetch_ok (hsame.trans hfetch), exec_fault_of_collaborators hexec, commit_fault]

/-! ## The timers in a step -/

theorem eq_ldToDelay_of_kind {i : Instr} (h : i.kind = .LD_TO_DELAY) : ∃ x, i = .ldToDelay x := by
  cases i with
  | ldToDelay x => exact ⟨x, rfl⟩
  | _ => cases h

theorem eq_ldToSound_of_kind {i : Instr} (h : i.kind = .LD_TO_SOUND) : ∃ x, i = .ldToSound x := by
  cases i with
  | ldToSound x => exact ⟨x, rfl⟩
  | _ => cases h

/-- DT has one writer (R38). -/
theorem exec_keeps_dt {i : Instr} {s t : State} (h : exec i s = .next t) (hi : ∀ x, i ≠ .ldToDelay x) :
    t.dt = s.dt := by
  obtain ⟨-, hdt, -⟩ := componentsHaveTheirWriters i s t h
  exact hdt.resolve_right fun hk => (eq_ldToDelay_of_kind hk).elim hi

/-- ST has one writer (R38). -/
theorem exec_keeps_st {i : Instr} {s t : State} (h : exec i s = .next t) (hi : ∀ x, i ≠ .ldToSound x) :
    t.st = s.st := by
  obtain ⟨-, -, hst, -⟩ := componentsHaveTheirWriters i s t h
  exact hst.resolve_right fun hk => (eq_ldToSound_of_kind hk).elim hi

/-- The block load and a write of the timers commute. -/
theorem State.setRegs_timers_update (s : State) (d e : Byte) (start : Nat) (bs : List Byte) :
    ({ s with dt := d, st := e } : State).setRegs start bs = { s.setRegs start bs with dt := d, st := e } := by
  induction bs generalizing s start with
  | nil => rfl
  | cons b bs ih => exact ih (s.setReg (BitVec.ofNat 4 start) b) (start + 1)

/-- No meaning but that of LD_FROM_DELAY reads a timer: other values in the timers change the next state in the timers
alone (R145). -/
theorem exec_timers_update {i : Instr} {s u : State} (h : exec i s = .next u) (hi : ∀ x, i ≠ .ldFromDelay x)
    (d e : Byte) :
    ∃ d' e', exec i { s with dt := d, st := e } = .next { u with dt := d', st := e' } := by
  cases i with
  | ldFromDelay x => exact absurd rfl (hi x)
  | ldToDelay x =>
    obtain rfl := Host.Outcome.next.inj h
    exact ⟨s.reg x, e, rfl⟩
  | ldToSound x =>
    obtain rfl := Host.Outcome.next.inj h
    exact ⟨d, s.reg x, rfl⟩
  | ret g =>
    obtain ⟨rest, a, hs, rfl⟩ := (execRet_next_iff g s u).mp h
    exact ⟨d, e, (execRet_next_iff g _ _).mpr ⟨rest, a, hs, rfl⟩⟩
  | call nnn =>
    obtain ⟨hl, rfl⟩ := (execCall_next_iff nnn s u).mp h
    exact ⟨d, e, (execCall_next_iff nnn _ _).mpr ⟨hl, rfl⟩⟩
  | ldMemToRegs x =>
    obtain ⟨hb, rfl⟩ := withBounds_next h
    refine ⟨d, e, ?_⟩
    rw [exec, execLdMemToRegs, State.setRegs_timers_update]
    exact withBounds_of_le hb _
  | drw _ _ _ | ldBcd _ | ldRegsToMem _ =>
    obtain ⟨hb, rfl⟩ := withBounds_next h
    exact ⟨d, e, withBounds_of_le hb _⟩
  | ldKeypress x =>
    obtain rfl := Host.Outcome.next.inj h
    refine ⟨d, e, ?_⟩
    show Host.Outcome.next (State.afterKeyEvent _ x s.keyEvent) = _
    cases s.keyEvent <;> rfl
  | _ =>
    obtain rfl := Host.Outcome.next.inj h
    exact ⟨d, e, rfl⟩

/-- Settles O22: the frame of the instruction at the pc gives the first four clauses, and the last holds because only
LD_FROM_DELAY reads a timer. -/
theorem stepsDoNotTickTheTimers : Obligations.StepsDoNotTickTheTimers := by
  unfold Obligations.StepsDoNotTickTheTimers
  intro s t h
  obtain ⟨i, u, hfetch, hexec, rfl⟩ := step_next h
  obtain ⟨-, hd⟩ := State.fetchInstr_ok hfetch
  rw [hd]
  simp only [Except.ok.injEq, ne_eq]
  refine ⟨?_, exec_keeps_dt (t := u) hexec, ?_, exec_keeps_st (t := u) hexec, fun hi d e => ?_⟩
  · rintro x rfl
    obtain rfl := Host.Outcome.next.inj hexec
    rfl
  · rintro x rfl
    obtain rfl := Host.Outcome.next.inj hexec
    rfl
  · have hsame : ({ s with dt := d, st := e } : State).fetchInstr = s.fetchInstr := rfl
    obtain ⟨d', e', hother⟩ := exec_timers_update hexec hi d e
    refine ⟨({ u with dt := d', st := e' } : State).nextDraw, ?_, rfl⟩
    rw [step_of_fetch_ok (hsame.trans hfetch), hother, commit_next]

/-! ## The program counter -/

/-- Settles O23: the skips and the transfers are shut out by their kinds, the waiting LD_KEYPRESS by its status; every
other meaning ends by advancing. -/
theorem pcAdvancesUnlessRedirected : Obligations.PcAdvancesUnlessRedirected := by
  unfold Obligations.PcAdvancesUnlessRedirected
  intro i s t h hskip htransfer hstatus
  have hpc : t.pc = s.pc + 2#16 := by
    cases i with
    | seImm _ _ | sneImm _ _ | seReg _ _ | sneReg _ _ | skp _ | sknp _ =>
      exact absurd (by simp [Instr.kind, skipKinds]) hskip
    | jp _ | call _ | jpOffset _ | ret _ => exact absurd (by simp [Instr.kind, transferKinds]) htransfer
    | drw _ _ _ | ldBcd _ | ldRegsToMem _ | ldMemToRegs _ =>
      obtain ⟨-, rfl⟩ := withBounds_next h
      simp
    | ldKeypress x =>
      obtain rfl := Host.Outcome.next.inj h
      cases hk : s.keyEvent with
      | none => simp [hk, State.afterKeyEvent] at hstatus
      | some k => rfl
    | _ =>
      obtain rfl := Host.Outcome.next.inj h
      rfl
  exact ⟨hpc, fun hf => by rw [hpc, State.toNat_npc hf]⟩

/-! ## The host's transactions -/

/-- Down by 1 where nonzero, floor 0 (R150). -/
theorem toNat_tickByte_eq_ite (d : Byte) : (tickByte d).toNat = if d.toNat > 0 then d.toNat - 1 else 0 := by
  rw [toNat_tickByte]
  split <;> omega

/-- Settles O56: each timer is ticked on its own. -/
theorem tickDecrementsEachTimer : Obligations.TickDecrementsEachTimer := by
  unfold Obligations.TickDecrementsEachTimer
  exact fun s => ⟨tickByte s.dt, tickByte s.st, toNat_tickByte_eq_ite s.dt, toNat_tickByte_eq_ite s.st, rfl, rfl⟩

/-- A load that fits reports Ok, and only memory changes (R152). -/
theorem transact_loadProgram_of_le {bytes : List Byte} {origin : Nat}
    (h : bytes.length = 0 ∨ origin + bytes.length ≤ 4096) (s : State) :
    transact s (.loadProgram bytes origin) = (s.setMem (s.mem.writeBlock origin bytes), .ok) := by
  rw [transact, State.loadProgram, withBounds_of_le h, settle_next]

/-- A load past 4095 is rejected whole (R153). -/
theorem transact_loadProgram_of_gt {bytes : List Byte} {origin : Nat} (hn : 0 < bytes.length)
    (h : 4096 < origin + bytes.length) (s : State) :
    transact s (.loadProgram bytes origin) = (s, .err (.memoryOutOfBounds origin bytes.length)) := by
  rw [transact, State.loadProgram, withBounds_of_gt hn h, settle_fault]

/-- Inside a block write lies the block (R242). -/
theorem Memory.read_writeBlock_inside {m : Memory} (hm : m.wf) (a : Nat) (bs : List Byte) {j : Nat}
    (hj : j < bs.length) : (m.writeBlock a bs).read (a + j) = bs[j] := by
  rw [Memory.read_writeBlock m a bs _ hm.1, if_pos (Nat.le_add_right a j), Nat.add_sub_cancel_left,
    List.getElem?_eq_getElem hj, Option.getD_some]

/-- Outside a block write every byte stays (R242). -/
theorem Memory.read_writeBlock_outside {m : Memory} (hm : m.wf) {a x : Nat} {bs : List Byte}
    (hx : x < a ∨ a + bs.length ≤ x) : (m.writeBlock a bs).read x = m.read x := by
  rw [Memory.read_writeBlock m a bs x hm.1]
  split
  · rw [List.getElem?_eq_none (by omega), Option.getD_none]
  · rfl

/-- Settles O58: the bounds check decides, and the block write puts the bytes where they belong. -/
theorem loadProgramCopiesItsBytes : Obligations.LoadProgramCopiesItsBytes := by
  unfold Obligations.LoadProgramCopiesItsBytes
  intro bytes origin s hm
  refine ⟨fun hfits => ?_, fun hne hgt => ?_⟩
  · have hb : bytes.length = 0 ∨ origin + bytes.length ≤ 4096 := by
      rcases hfits with rfl | hle
      · exact .inl rfl
      · omega
    exact ⟨s.mem.writeBlock origin bytes, transact_loadProgram_of_le hb s,
      fun j hj => Memory.read_writeBlock_inside hm origin bytes hj,
      fun a ha => Memory.read_writeBlock_outside hm ha⟩
  · exact transact_loadProgram_of_gt (List.length_pos_of_ne_nil hne) (by omega) s

/-- Settles O59: the transaction is the step from the state with the answers handed in, and settle turns its outcome
into the report. -/
theorem stepTransactionReportsTheStep : Obligations.StepTransactionReportsTheStep := by
  unfold Obligations.StepTransactionReportsTheStep
  intro s inputs
  refine ⟨rfl, fun a => rfl, fun t h => ?_, fun f h => ?_⟩
  · rw [transact, h, settle_next]
  · rw [transact, h, settle_fault]

end Sys2Proof.Machine
end

section
/-! PROOFS. The family 41_control_flow.md: SYS, the transfers of control RET, JP, CALL and JP_OFFSET, and the four skips
on a register (R170 to R178). That the word of a row decodes to its instruction is `decode_encode` throughout. -/

namespace Sys2Proof.Machine

/-! ## SYS, JP and JP_OFFSET -/

/-- Settles O27: both SYS meanings are the plain advance. -/
theorem sysOnlyAdvances : Obligations.SysOnlyAdvances := by
  unfold Obligations.SysOnlyAdvances
  exact fun _ _ _ => ⟨rfl, rfl⟩

/-- Settles O29: the target is NNN zero-extended (R95). -/
theorem jpGoesToItsTarget : Obligations.JpGoesToItsTarget := by
  unfold Obligations.JpGoesToItsTarget
  intro strict nnn s
  refine ⟨decode_encode (i := .jp nnn) rfl rfl, ?_⟩
  rw [← addrWord_eq]
  rfl

/-- Settles O32: the sum of a 12-bit and an 8-bit value fits the pc, so it is the natural one (R36). -/
theorem jpOffsetAddsVZero : Obligations.JpOffsetAddsVZero := by
  unfold Obligations.JpOffsetAddsVZero
  intro strict nnn s
  have htarget := toNat_jumpOffset nnn (s.reg 0#4)
  refine ⟨decode_encode (i := .jpOffset nnn) rfl rfl, jumpOffset nnn (s.reg 0#4), htarget, ?_, rfl⟩
  have := nnn.isLt
  have := (s.reg 0#4).isLt
  omega

/-! ## RET and CALL -/

/-- RET goes to the top entry and removes it (R171). -/
theorem exec_ret_of_stack_eq {s : State} {rest : List Word} {a : Word} (h : s.stack = rest ++ [a]) (g : BitVec 8) :
    exec (.ret g) s = .next { s with stack := rest, pc := a, status := .executed } :=
  (execRet_next_iff g s _).mpr ⟨rest, a, h, rfl⟩

/-- Settles O28: a RET that completes leaves the pc at an entry of the stack, and the invariant bounds the entries. -/
theorem retPopsThePc : Obligations.RetPopsThePc := by
  unfold Obligations.RetPopsThePc
  intro strict g s
  refine ⟨decode_encode (i := .ret g) rfl rfl, fun _ _ h => exec_ret_of_stack_eq h g, fun h => ?_, fun hi t h => ?_⟩
  · exact (execRet_fault_iff g s .stackUnderflow).mpr ⟨h, rfl⟩
  · obtain ⟨rest, a, hs, rfl⟩ := (execRet_next_iff g s t).mp h
    exact hi.entries_bounded a (by simp [hs])

/-- Settles O30: the depth decides between the push and the fault. -/
theorem callPushesTheNextAddress : Obligations.CallPushesTheNextAddress := by
  unfold Obligations.CallPushesTheNextAddress
  intro strict nnn s
  refine ⟨decode_encode (i := .call nnn) rfl rfl, fun hlt => ?_, fun heq => ?_⟩
  · rw [← addrWord_eq]
    exact (execCall_next_iff nnn s _).mpr ⟨hlt, rfl⟩
  · exact (execCall_fault_iff nnn s .stackOverflow).mpr ⟨heq.ge, rfl⟩

/-- Settles O31: the CALL left its pc + 2 on top of the old stack, and RET goes there whatever else has changed. -/
theorem callThenRetReturns : Obligations.CallThenRetReturns := by
  unfold Obligations.CallThenRetReturns
  intro nnn g s t u hcall hstack
  obtain ⟨-, rfl⟩ := (execCall_next_iff nnn s t).mp hcall
  exact exec_ret_of_stack_eq hstack g

/-! ## The skips -/

/-- A skip whose test decides `p` goes to pc + 4 where `p` holds, to npc elsewhere, and changes nothing else (R137). -/
theorem State.skipIf_eq_of_iff {c : Bool} {p : Prop} [Decidable p] (h : c = true ↔ p) (s : State) :
    s.skipIf c = { s with pc := if p then s.pc + 4#16 else s.pc + 2#16, status := .executed } := by
  rw [← if_congr h rfl rfl]
  rfl

/-- Settles O33: the two tests decide equality and inequality with KK. -/
theorem immediateSkips : Obligations.ImmediateSkips := by
  unfold Obligations.ImmediateSkips
  intro strict x kk s
  exact ⟨decode_encode (i := .seImm x kk) rfl rfl, decode_encode (i := .sneImm x kk) rfl rfl,
    congrArg _ (State.skipIf_eq_of_iff beq_iff_eq s), congrArg _ (State.skipIf_eq_of_iff bne_iff_ne s)⟩

/-- Settles O34: the two tests decide equality and inequality of the registers; with N ≠ 0 the words of groups 0x5 and
0x9 match no row. -/
theorem registerSkips : Obligations.RegisterSkips := by
  unfold Obligations.RegisterSkips
  intro strict x y n s
  refine ⟨decode_encode (i := .seReg x y) rfl rfl, decode_encode (i := .sneReg x y) rfl rfl, fun hn => ?_,
    congrArg _ (State.skipIf_eq_of_iff beq_iff_eq s), congrArg _ (State.skipIf_eq_of_iff bne_iff_ne s)⟩
  have h5 : matchesNoRow (0x5#4 ++ x ++ y ++ n) = true :=
    matchesNoRow_group5 (opN0_concat4 ..) (by rwa [opN3_concat4])
  have h9 : matchesNoRow (0x9#4 ++ x ++ y ++ n) = true :=
    matchesNoRow_group9 (opN0_concat4 ..) (by rwa [opN3_concat4])
  exact ⟨decode_of_matchesNoRow h5 false, decode_of_matchesNoRow h5 true, decode_of_matchesNoRow h9 false,
    decode_of_matchesNoRow h9 true⟩

end Sys2Proof.Machine
end

section
/-! PROOFS. The family 42_alu.md: the register loads, the arithmetic and the logic (R200 to R211), and what VF ends with
where it is also an operand or the destination (R214). That the word of a row decodes to its instruction is
`decode_encode` throughout. -/

namespace Sys2Proof.Machine

/-! ## The flag and the result in the register file -/

/-- R206: the flag of ADD_REG by the natural sum. -/
@[simp] theorem toNat_carryFlag (a b : Byte) : (carryFlag a b).toNat = if a.toNat + b.toNat > 255 then 1 else 0 := by
  simp [carryFlag, toNat_flagByte]

/-- R207, R209: the flag of SUB and SUBN by the strict comparison of naturals (R213). -/
@[simp] theorem toNat_notBorrowFlag (a b : Byte) :
    (notBorrowFlag a b).toNat = if a.toNat > b.toNat then 1 else 0 := by
  simp [notBorrowFlag, toNat_flagByte]

/-- R140: the destination ends with the result, also where it is VF. -/
theorem State.reg_dest_setFlagThenReg (s : State) (f : Byte) (d : RegIdx) (b : Byte) :
    (s.setFlagThenReg f d b).advance.reg d = b := by simp

/-- R140: VF ends with the flag where it is not the destination. -/
theorem State.regF_setFlagThenReg {d : RegIdx} (hd : d ≠ 0xF#4) (s : State) (f b : Byte) :
    (s.setFlagThenReg f d b).advance.reg 0xF#4 = f := by simp [regF, hd]

/-- A register other than VF and the destination stays (R34). -/
theorem State.reg_setFlagThenReg_of_ne {d z : RegIdx} (hd : z ≠ d) (hz : z ≠ 0xF#4) (s : State) (f b : Byte) :
    (s.setFlagThenReg f d b).advance.reg z = s.reg z := by simp [regF, hd.symm, hz.symm]

/-! ## What VF ends with -/

/-- Settles O42: a row of R214 with VF as the destination asks for the result, which is written last (`hdest`), and a
row with another destination asks for the flag (`hflag`); both are made of the old registers. -/
theorem aliasedFlagRegister : Obligations.AliasedFlagRegister := by
  unfold Obligations.AliasedFlagRegister
  rintro s z hz _ _ rfl rfl
  have hdest := State.reg_dest_setFlagThenReg s
  have hflag := State.regF_setFlagThenReg hz s
  exact ⟨⟨_, rfl, by rw [hdest, toNat_addBytes]⟩,
    ⟨_, rfl, by rw [hflag, toNat_carryFlag]⟩,
    ⟨_, rfl, by rw [hdest, toNat_addBytes, Nat.two_mul]⟩,
    ⟨_, rfl, by rw [hdest, toNat_subBytes]⟩,
    ⟨_, rfl, by rw [hflag, toNat_notBorrowFlag], by rw [hdest, toNat_subBytes]⟩,
    ⟨_, rfl, by rw [hdest, toNat_subBytes, Nat.add_sub_cancel_left]⟩,
    ⟨_, rfl, by rw [hflag, toNat_notBorrowFlag], by rw [hdest, toNat_subBytes]⟩,
    ⟨_, rfl, by rw [hdest, toNat_subBytes], State.reg_setFlagThenReg_of_ne hz hz s _ _⟩,
    ⟨_, rfl, by rw [hdest, toNat_subBytes, Nat.add_sub_cancel_left]⟩,
    fun _ => ⟨_, rfl, by rw [hdest, toNat_shiftRight1]⟩,
    ⟨_, rfl, by rw [hflag, toNat_lowBitFlag]⟩,
    fun _ => ⟨_, rfl, by rw [hdest, toNat_shiftLeft1, Nat.mul_comm]⟩,
    ⟨_, rfl, by rw [hflag, toNat_highBitFlag]⟩⟩

/-! ## Loads, sums and bitwise operations -/

/-- Settles O36: the write of one register and the advance. -/
theorem loadsIntoARegister : Obligations.LoadsIntoARegister := by
  unfold Obligations.LoadsIntoARegister
  exact fun strict x y kk s =>
    ⟨decode_encode (i := .ldImm x kk) rfl rfl, decode_encode (i := .ldReg x y) rfl rfl, rfl, rfl⟩

/-- Settles O37: the byte written is the exact sum, narrowed. -/
theorem addImmWrapsWithoutFlag : Obligations.AddImmWrapsWithoutFlag := by
  unfold Obligations.AddImmWrapsWithoutFlag
  exact fun strict x kk s =>
    ⟨decode_encode (i := .addImm x kk) rfl rfl, addBytes (s.reg x) kk, toNat_addBytes _ _, rfl⟩

/-- Settles O38: the write of one register and the advance, with no write of VF. -/
theorem bitwiseOperations : Obligations.BitwiseOperations := by
  unfold Obligations.BitwiseOperations
  exact fun strict x y s =>
    ⟨decode_encode (i := .orReg x y) rfl rfl, decode_encode (i := .andReg x y) rfl rfl,
      decode_encode (i := .xorReg x y) rfl rfl, rfl, rfl, rfl⟩

/-! ## The operations that write a flag -/

/-- Settles O39: the carry is that of the natural sum. -/
theorem addRegWritesCarryThenSum : Obligations.AddRegWritesCarryThenSum := by
  unfold Obligations.AddRegWritesCarryThenSum
  exact fun x y s => ⟨addBytes (s.reg x) (s.reg y), carryFlag (s.reg x) (s.reg y), toNat_addBytes _ _,
    toNat_carryFlag _ _, rfl⟩

/-- Settles O40: SUBN is SUB with the operands exchanged, and its destination is V[Y]. -/
theorem subtractionsWriteFlagThenDifference : Obligations.SubtractionsWriteFlagThenDifference := by
  unfold Obligations.SubtractionsWriteFlagThenDifference
  intro x y s
  exact ⟨⟨subBytes (s.reg x) (s.reg y), notBorrowFlag (s.reg x) (s.reg y), toNat_subBytes _ _,
      toNat_notBorrowFlag _ _, rfl⟩,
    ⟨subBytes (s.reg y) (s.reg x), notBorrowFlag (s.reg y) (s.reg x), toNat_subBytes _ _,
      toNat_notBorrowFlag _ _, rfl⟩⟩

/-- Settles O41: the bit shifted out and the shifted value, both of the old V[X]. -/
theorem shiftsWriteTheBitThenTheResult : Obligations.ShiftsWriteTheBitThenTheResult := by
  unfold Obligations.ShiftsWriteTheBitThenTheResult
  intro x y s
  refine ⟨⟨shiftRight1 (s.reg x), lowBitFlag (s.reg x), toNat_shiftRight1 _, toNat_lowBitFlag _, rfl⟩,
    ⟨shiftLeft1 (s.reg x), highBitFlag (s.reg x), ?_, toNat_highBitFlag _, rfl⟩⟩
  rw [toNat_shiftLeft1, Nat.mul_comm]

/-! ## The random byte -/

/-- The host's answer where it handed one in (R332). -/
theorem State.randomByte_of_answers_cons {s : State} {a : Answers} {rest : List Answers} (h : s.answers = a :: rest) :
    s.randomByte = a.randomByte := by
  simp only [State.randomByte, h]

/-- The free value of the step's number where the host handed in none (R332). -/
theorem State.randomByte_of_answers_nil {s : State} (h : s.answers = []) :
    s.randomByte = Config.randomByte s.draws := by
  simp only [State.randomByte, h]

/-- RND leaves the masked byte in V[X] (R211). -/
theorem exec_rnd_reg (x : RegIdx) (kk : Byte) (s : State) :
    ∃ t, exec (.rnd x kk) s = .next t ∧ t.reg x = s.randomByte &&& kk :=
  ⟨_, rfl, by simp⟩

/-- Settles O43: the mask 00 clears every bit of the byte and the mask FF keeps them all. -/
theorem rndMasksTheRandomByte : Obligations.RndMasksTheRandomByte := by
  unfold Obligations.RndMasksTheRandomByte
  intro x kk s
  have hzero : s.randomByte &&& 0x00#8 = 0x00#8 := BitVec.and_zero
  have hones : s.randomByte &&& 0xFF#8 = s.randomByte := BitVec.and_allOnes
  refine ⟨rfl, fun _ _ => State.randomByte_of_answers_cons, State.randomByte_of_answers_nil, ?_, ?_⟩
  · simpa only [hzero] using exec_rnd_reg x 0x00#8 s
  · simpa only [hones] using exec_rnd_reg x 0xFF#8 s

end Sys2Proof.Machine
end

section
/-! PROOFS. The family 43_index_memory.md: what is written to I (R240, R241, R244), the decimal digits (R245), and the
block store and the block load (R246, R247). That the word of a row decodes to its instruction is `decode_encode`, and
the bounds check in front of each block access (R243) is `withBounds_of_le` and `withBounds_of_gt` throughout. -/

namespace Sys2Proof.Machine

/-! ## The index register -/

/-- Settles O44: NNN is zero-extended, and the sum is exact, narrowed to the 16 bits of I. -/
theorem indexLoadAndAdd : Obligations.IndexLoadAndAdd := by
  unfold Obligations.IndexLoadAndAdd
  intro strict nnn x s
  refine ⟨decode_encode (i := .ldIndex nnn) rfl rfl, decode_encode (i := .addIndex x) rfl rfl, ?_,
    addIndexWord s.i (s.reg x), toNat_addIndexWord _ _, rfl⟩
  rw [← addrWord_eq]
  rfl

/-- Settles O45: five times a byte is at most 1275, so nothing of it is cut off. -/
theorem spriteAddressIsFiveTimesTheRegister : Obligations.SpriteAddressIsFiveTimesTheRegister := by
  unfold Obligations.SpriteAddressIsFiveTimesTheRegister
  intro x s
  have haddr : (glyphAddr (s.reg x)).toNat = 5 * (s.reg x).toNat := by rw [toNat_glyphAddr, Nat.mul_comm]
  refine ⟨glyphAddr (s.reg x), haddr, ?_, rfl⟩
  have := (s.reg x).isLt
  omega

/-! ## The decimal digits -/

@[simp] theorem length_bcdDigits (a : Byte) : (bcdDigits a).length = 3 := rfl

/-- R245: the digits as naturals, hundreds first; each fits a byte. -/
theorem map_toNat_bcdDigits (a : Byte) :
    (bcdDigits a).map BitVec.toNat = [a.toNat / 100, a.toNat / 10 % 10, a.toNat % 10] := by
  have := a.isLt
  simp only [bcdDigits, List.map_cons, List.map_nil, BitVec.toNat_ofNat, List.cons.injEq, and_true]
  omega

/-- R245: the byte that LD_BCD leaves at place j of its block is digit j. -/
theorem Memory.toNat_read_writeBlock_bcdDigits {m : Memory} (hm : m.wf) (a : Nat) (b : Byte) {j d : Nat}
    (hd : [b.toNat / 100, b.toNat / 10 % 10, b.toNat % 10][j]? = some d) :
    ((m.writeBlock a (bcdDigits b)).read (a + j)).toNat = d := by
  rw [← map_toNat_bcdDigits, List.getElem?_map, Option.map_eq_some_iff] at hd
  obtain ⟨c, hc, rfl⟩ := hd
  obtain ⟨hj, rfl⟩ := List.getElem?_eq_some_iff.mp hc
  rw [Memory.read_writeBlock_inside hm a _ hj]

/-- Settles O46: a block write of the three digits, behind the bounds check. -/
theorem bcdStoresThreeDigits : Obligations.BcdStoresThreeDigits := by
  unfold Obligations.BcdStoresThreeDigits
  intro strict x s hm
  refine ⟨decode_encode (i := .ldBcd x) rfl rfl, fun hle => ?_, fun hgt => ?_⟩
  · exact ⟨_, withBounds_of_le (.inr (by omega)) _,
      Memory.toNat_read_writeBlock_bcdDigits hm s.i.toNat (s.reg x) (j := 0) rfl,
      Memory.toNat_read_writeBlock_bcdDigits hm s.i.toNat (s.reg x) (j := 1) rfl,
      Memory.toNat_read_writeBlock_bcdDigits hm s.i.toNat (s.reg x) (j := 2) rfl,
      fun a ha => Memory.read_writeBlock_outside hm (by rw [length_bcdDigits]; omega), rfl⟩
  · exact withBounds_of_gt (by omega) (by omega) _

/-! ## The block store -/

/-- R246: the byte that the block store leaves at place j of its block is V[j]. -/
theorem Memory.read_writeBlock_regsUpTo {m : Memory} (hm : m.wf) (a : Nat) (s : State) {x j : RegIdx}
    (hj : j.toNat ≤ x.toNat) : (m.writeBlock a (s.regsUpTo x)).read (a + j.toNat) = s.reg j := by
  have hlt : j.toNat < (s.regsUpTo x).length := by rw [State.length_regsUpTo]; omega
  rw [Memory.read_writeBlock_inside hm a _ hlt, State.getElem_regsUpTo, BitVec.ofNat_toNat, BitVec.setWidth_eq]

/-- Settles O47: a block write of V0 to V[X], behind the bounds check. -/
theorem blockStoreWritesTheRegisters : Obligations.BlockStoreWritesTheRegisters := by
  unfold Obligations.BlockStoreWritesTheRegisters
  intro x s hm
  refine ⟨fun hle => ?_, fun hgt => ?_⟩
  · exact ⟨_, withBounds_of_le (.inr (by omega)) _,
      fun j hj => Memory.read_writeBlock_regsUpTo hm s.i.toNat s hj,
      fun a ha => Memory.read_writeBlock_outside hm (by rw [State.length_regsUpTo]; omega), rfl⟩
  · exact withBounds_of_gt (by omega) (by omega) _

/-! ## The block load -/

/-- R247: the block load leaves in V[j] the byte at place j of its block. -/
theorem State.reg_setRegs_readBlock (s : State) (m : Memory) (a : Nat) {x j : RegIdx} (hj : j.toNat ≤ x.toNat) :
    (s.setRegs 0 (m.readBlock a (x.toNat + 1))).reg j = m.read (a + j.toNat) := by
  have hx := x.isLt
  have hlt : j.toNat < (m.readBlock a (x.toNat + 1)).length := by rw [Memory.length_readBlock]; omega
  rw [State.reg_setRegs s 0 _ j (by rw [Memory.length_readBlock]; omega), if_pos (Nat.zero_le _), Nat.sub_zero,
    List.getElem?_eq_getElem hlt, Option.getD_some, Memory.getElem_readBlock]

/-- Settles O48: a block read into V0 to V[X], behind the bounds check. -/
theorem blockLoadReadsTheRegisters : Obligations.BlockLoadReadsTheRegisters := by
  unfold Obligations.BlockLoadReadsTheRegisters
  intro x s
  have hx := x.isLt
  refine ⟨fun hle => ?_, fun hgt => ?_⟩
  · have hlen := Memory.length_readBlock s.mem s.i.toNat (x.toNat + 1)
    exact ⟨_, withBounds_of_le (.inr (by omega)) _,
      fun j hj => State.reg_setRegs_readBlock s s.mem s.i.toNat hj,
      fun j hj => State.reg_setRegs_of_le s _ j (by omega) (by omega),
      congrArg State.advance (State.setRegs_eq s 0 _)⟩
  · exact withBounds_of_gt (by omega) (by omega) _

/-- Settles O49: the store passed the bounds check and left I, so the load passes it too (O48), and the bytes it finds
at I are the registers that the store put there (O47). -/
theorem blockLoadUndoesBlockStore : Obligations.BlockLoadUndoesBlockStore := by
  unfold Obligations.BlockLoadUndoesBlockStore
  intro x s t u hm hstore hmem hi
  obtain ⟨hb, -⟩ := withBounds_next hstore
  obtain ⟨t', hstore', hstored, -, hframe⟩ := (blockStoreWritesTheRegisters x s hm).1 (by omega)
  obtain rfl : t = t' := Host.Outcome.next.inj (hstore.symm.trans hstore')
  have hbase : u.i = s.i := by rw [hi, hframe]
  obtain ⟨w, hload, hloaded, -⟩ := (blockLoadReadsTheRegisters x u).1 (by rw [hbase]; omega)
  refine ⟨w, hload, fun j hj => ?_⟩
  rw [hloaded j hj, hmem, hbase, hstored j hj]

end Sys2Proof.Machine
end

section
/-! PROOFS. The family 44_display.md: the cleared screen (R270), the pixels a sprite inverts (R271, R272, R274 to R276),
when it collides (R273), and what a second draw at the same place does. `State.drawn_spec` says what the drawing itself
makes of the pixels and of the flag. -/

namespace Sys2Proof.Machine

/-! ## Clearing -/

/-- Settles O50: the blank screen, and the advance. -/
theorem clsClearsEveryPixel : Obligations.ClsClearsEveryPixel := by
  unfold Obligations.ClsClearsEveryPixel
  exact fun strict g s =>
    ⟨decode_encode (i := .cls g) rfl rfl, Framebuffer.blank, Framebuffer.pixel_blank, rfl⟩

/-! ## One draw -/

/-- The sprite that DRW x,y,n would draw from this state has a set bit on the pixel (R271). -/
abbrev State.spriteOn (s : State) (x y : RegIdx) (n : Nibble) (px : Fin 64) (py : Fin 32) : Bool :=
  spriteCovers s.mem s.i.toNat n.toNat (s.reg x).toNat (s.reg y).toNat px py

/-- DRW completes exactly where its rows lie inside memory; it writes the drawn screen, then the flag (R271, R275). -/
theorem exec_drw_next_iff (x y : RegIdx) (n : Nibble) (s t : State) :
    exec (.drw x y n) s = .next t ↔ (n.toNat = 0 ∨ s.i.toNat + n.toNat ≤ 4096) ∧
      t = ((s.setFB (s.drawn x y n).1).setVF (collisionFlag (s.drawn x y n).2)).advance :=
  ⟨withBounds_next, fun ⟨hb, ht⟩ => ht ▸ withBounds_of_le hb _⟩

section
variable {x y : RegIdx} {n : Nibble} {s t : State} (h : exec (.drw x y n) s = .next t)
include h

/-- R271: DRW inverts the pixels under the set bits of the sprite. -/
theorem pixel_of_drw (px : Fin 64) (py : Fin 32) :
    t.fb.pixel px py = (s.fb.pixel px py ^^ s.spriteOn x y n px py) := by
  obtain ⟨-, rfl⟩ := (exec_drw_next_iff x y n s t).mp h
  obtain ⟨hpixel, -⟩ := s.drawn_spec x y n
  exact hpixel px py

/-- VF ends with the flag of the drawing (R273). -/
theorem regF_of_drw : t.reg 0xF#4 = collisionFlag (s.drawn x y n).2 := by
  obtain ⟨-, rfl⟩ := (exec_drw_next_iff x y n s t).mp h
  simp [regF]

/-- R273: DRW sets VF to 1 where a set bit of the sprite lands on a pixel that was 1. -/
theorem regF_of_drw_eq_one_iff :
    t.reg 0xF#4 = 1#8 ↔ ∃ px py, s.spriteOn x y n px py = true ∧ s.fb.pixel px py = true := by
  obtain ⟨-, hcollides⟩ := s.drawn_spec x y n
  rw [regF_of_drw h, collisionFlag, flagByte_eq_one_iff, hcollides]

/-- DRW leaves its own operands but for VF, so the same draw finds the same sprite at the same place (R276). -/
theorem spriteOn_of_drw (hx : x ≠ 0xF#4) (hy : y ≠ 0xF#4) (px : Fin 64) (py : Fin 32) :
    t.spriteOn x y n px py = s.spriteOn x y n px py := by
  obtain ⟨-, rfl⟩ := (exec_drw_next_iff x y n s t).mp h
  simp [State.spriteOn, regF, hx.symm, hy.symm]

end

/-- Settles O51: behind the bounds check, the pixels of the drawn screen. -/
theorem drwXorsTheSpriteIntoTheScreen : Obligations.DrwXorsTheSpriteIntoTheScreen := by
  unfold Obligations.DrwXorsTheSpriteIntoTheScreen
  intro x y n s
  refine ⟨fun hle => ?_, fun ⟨hn, hgt⟩ => withBounds_of_gt hn (by omega) _⟩
  have hdraw := (exec_drw_next_iff x y n s _).mpr ⟨by omega, rfl⟩
  refine ⟨_, hdraw, pixel_of_drw hdraw, ?_⟩
  rw [regF_of_drw hdraw]
  rfl

/-- Settles O52: under a set bit, a pixel that was 1 is 0 afterwards. -/
theorem drwReportsCollisions : Obligations.DrwReportsCollisions := by
  unfold Obligations.DrwReportsCollisions
  intro x y n s t h
  constructor
  · rw [regF_of_drw h]
    cases (s.drawn x y n).2
    · exact .inr rfl
    · exact .inl rfl
  · rw [regF_of_drw_eq_one_iff h]
    refine exists_congr fun px => exists_congr fun py => and_congr_right fun hon => ?_
    rw [pixel_of_drw h, hon]
    simp

/-! ## The set bits of a sprite -/

/-- A byte is nonzero iff one of its eight columns, from the left, is set (R274). -/
theorem ne_zero_iff_exists_column (b : Byte) : b ≠ 0#8 ↔ ∃ c, c < 8 ∧ b.getLsbD (7 - c) = true := by
  constructor
  · intro hb
    by_contra hnone
    refine hb (BitVec.eq_of_getLsbD_eq fun i hi => ?_)
    rw [BitVec.getLsbD_zero, Bool.eq_false_iff]
    exact fun hbit => hnone ⟨7 - i, by omega, by rwa [show 7 - (7 - i) = i by omega]⟩
  · rintro ⟨c, -, hbit⟩ rfl
    simp at hbit

/-- The column c of the row r lies c to the right and r below, with both coordinates wrapping (R272). -/
theorem spriteCovers_wrap (m : Memory) (base x y : Nat) {n r c : Nat} (hn : n ≤ 32) (hr : r < n) (hc : c < 8) :
    spriteCovers m base n x y (wrapX (x + c)) (wrapY (y + r)) = (m.read (base + r)).getLsbD (7 - c) := by
  have hcol : ((x + c) % 64 + 64 - x % 64) % 64 = c := by omega
  have hrow : ((y + r) % 32 + 32 - y % 32) % 32 = r := by omega
  simp [spriteCovers, hcol, hrow, hc, hr]

/-- A sprite of at most 32 rows covers some pixel iff one of its bytes is nonzero, wherever it is drawn. -/
theorem exists_spriteCovers_iff (m : Memory) (base x y : Nat) {n : Nat} (hn : n ≤ 32) :
    (∃ px py, spriteCovers m base n x y px py = true) ↔ ∃ row, row < n ∧ m.read (base + row) ≠ 0#8 := by
  simp only [ne_zero_iff_exists_column]
  constructor
  · rintro ⟨px, py, hon⟩
    simp only [spriteCovers, Bool.and_eq_true, decide_eq_true_eq] at hon
    obtain ⟨⟨hc, hr⟩, hbit⟩ := hon
    exact ⟨_, hr, _, hc, hbit⟩
  · rintro ⟨r, hr, c, hc, hbit⟩
    exact ⟨wrapX (x + c), wrapY (y + r), by rwa [spriteCovers_wrap m base x y hn hr hc]⟩

/-! ## Two draws -/

section
variable {x y : RegIdx} {n : Nibble} {s t u : State} (hx : x ≠ 0xF#4) (hy : y ≠ 0xF#4)
  (h₁ : exec (.drw x y n) s = .next t)
include hx hy h₁

/-- R271: what is inverted twice is as before. -/
theorem fb_of_drw_drw (h₂ : exec (.drw x y n) t = .next u) : u.fb = s.fb := by
  refine Framebuffer.ext fun px py => ?_
  rw [pixel_of_drw h₂, spriteOn_of_drw h₁ hx hy, pixel_of_drw h₁, Bool.xor_assoc, Bool.xor_self, Bool.xor_false]

/-- The second draw collides where a set bit of the sprite found a pixel 0, which the first draw made 1 (R273). -/
theorem regF_of_drw_drw_eq_one_iff (h₂ : exec (.drw x y n) t = .next u) :
    u.reg 0xF#4 = 1#8 ↔ ∃ px py, s.spriteOn x y n px py = true ∧ s.fb.pixel px py = false := by
  rw [regF_of_drw_eq_one_iff h₂]
  refine exists_congr fun px => exists_congr fun py => ?_
  rw [spriteOn_of_drw h₁ hx hy]
  refine and_congr_right fun hon => ?_
  rw [pixel_of_drw h₁, hon]
  simp

/-- One of two draws collides iff the sprite has a set bit: the pixel under it was either 1 or 0. -/
theorem regF_of_drw_or_drw_eq_one_iff (h₂ : exec (.drw x y n) t = .next u) :
    (t.reg 0xF#4 = 1#8 ∨ u.reg 0xF#4 = 1#8) ↔ ∃ px py, s.spriteOn x y n px py = true := by
  rw [regF_of_drw_eq_one_iff h₁, regF_of_drw_drw_eq_one_iff hx hy h₁ h₂]
  simp only [← exists_or, ← and_or_left, Bool.eq_true_or_eq_false_self, and_true]

end

/-- Settles O53: the first draw leaves I, so the second passes the bounds check too. -/
theorem drawingTwiceRestoresTheScreen : Obligations.DrawingTwiceRestoresTheScreen := by
  unfold Obligations.DrawingTwiceRestoresTheScreen
  intro x y n s t hx hy h₁
  have hn := n.isLt
  have hfits : n.toNat = 0 ∨ t.i.toNat + n.toNat ≤ 4096 := by
    obtain ⟨hb, rfl⟩ := (exec_drw_next_iff x y n s t).mp h₁
    exact hb
  have h₂ := (exec_drw_next_iff x y n t _).mpr ⟨hfits, rfl⟩
  exact ⟨_, h₂, fb_of_drw_drw hx hy h₁ h₂, regF_of_drw_drw_eq_one_iff hx hy h₁ h₂,
    (regF_of_drw_or_drw_eq_one_iff hx hy h₁ h₂).trans (exists_spriteCovers_iff _ _ _ _ (by omega))⟩

end Sys2Proof.Machine
end

section
/-! PROOFS. The family 45_keypad_timers.md: the skips on the keypad's answer (R290, R291), the key wait (R292) and the
moves between a register and a timer (R293 to R295). That the word of a row decodes to its instruction is
`decode_encode` throughout. -/

namespace Sys2Proof.Machine

/-! ## The collaborators' answers -/

/-- The keys of the host's answer where it handed one in (R331). -/
theorem State.keyPressed_iff_of_answers_cons {s : State} {a : Answers} {rest : List Answers}
    (h : s.answers = a :: rest) (k : Byte) : s.keyPressed k = true ↔ k ∈ a.pressed := by
  simp only [State.keyPressed, h, List.contains_iff_mem]

/-- The free value of the step's number and the key where the host handed in no answer (R331). -/
theorem State.keyPressed_of_answers_nil {s : State} (h : s.answers = []) (k : Byte) :
    s.keyPressed k = Config.keyPressed s.draws k := by
  simp only [State.keyPressed, h]

/-- The event of the host's answer where it handed one in (R331). -/
theorem State.keyEvent_of_answers_cons {s : State} {a : Answers} {rest : List Answers} (h : s.answers = a :: rest) :
    s.keyEvent = a.keyEvent := by
  simp only [State.keyEvent, h]

/-- The free value of the step's number where the host handed in no answer (R331). -/
theorem State.keyEvent_of_answers_nil {s : State} (h : s.answers = []) : s.keyEvent = Config.keyEvent s.draws := by
  simp only [State.keyEvent, h]

/-! ## The skips on a key -/

/-- A skip on the opposite of a test goes to npc where the test holds, to pc + 4 elsewhere (R137). -/
theorem State.skipIf_not (s : State) (c : Bool) :
    s.skipIf (!c) = { s with pc := if c then s.pc + 2#16 else s.pc + 4#16, status := .executed } := by
  cases c <;> rfl

/-- Settles O35: SKNP skips on the opposite of SKP's test. -/
theorem keySkips : Obligations.KeySkips := by
  unfold Obligations.KeySkips
  intro x s
  exact ⟨rfl, congrArg _ (State.skipIf_not s _), fun _ _ k h => State.keyPressed_iff_of_answers_cons h k,
    fun k h => State.keyPressed_of_answers_nil h k⟩

/-! ## The key wait -/

/-- LD_KEYPRESS goes on with what the poll answers (R292). -/
theorem exec_ldKeypress_of_keyEvent {s : State} {e : Option Byte} (h : s.keyEvent = e) (x : RegIdx) :
    exec (.ldKeypress x) s = .next (s.afterKeyEvent x e) := by
  rw [← h]
  rfl

/-- Settles O54: after an event the load of the key, without one the wait. -/
theorem keypressLoadsOrWaits : Obligations.KeypressLoadsOrWaits := by
  unfold Obligations.KeypressLoadsOrWaits
  intro x s
  exact ⟨fun _ hk => exec_ldKeypress_of_keyEvent hk x, fun hn => exec_ldKeypress_of_keyEvent hn x,
    fun _ _ => State.keyEvent_of_answers_cons, State.keyEvent_of_answers_nil⟩

/-! ## The timer moves -/

/-- Settles O55: the write of one register or of one timer, and the advance. -/
theorem timerMoves : Obligations.TimerMoves := by
  unfold Obligations.TimerMoves
  exact fun strict x s =>
    ⟨decode_encode (i := .ldFromDelay x) rfl rfl, decode_encode (i := .ldToDelay x) rfl rfl,
      decode_encode (i := .ldToSound x) rfl rfl, rfl, rfl, rfl⟩

end Sys2Proof.Machine
end

section
/-! PROOFS. The family 60_exceptions.md: when a step faults and with what information (R310 to R314, R317, R318), and
that a transaction that fails changes nothing (R316). The case split over the instructions is `exec_fault_iff`; what
the fetch adds to it is `State.fetchInstr_error_iff`. -/

namespace Sys2Proof.Machine

/-! ## What a failed transaction leaves -/

/-- Where the report is not the success's, nothing was committed (R316). -/
theorem settle_fst_of_snd_ne {before : State} {g : State → Report} {r : Result}
    (h : ∀ t, (settle before g r).2 ≠ g t) : (settle before g r).1 = before := by
  cases r with
  | next t => exact absurd rfl (h t)
  | fault f => rfl
  | refused q => rfl

/-- A transaction that reports no kind of `Ok` leaves the machine as it was (R316). -/
theorem transact_fst_of_not_ok {s : State} {tr : Transaction} (hok : (transact s tr).2 ≠ .ok)
    (hstepped : ∀ status, (transact s tr).2 ≠ .stepped status) : (transact s tr).1 = s := by
  cases tr with
  | create => exact settle_fst_of_snd_ne fun _ => hok
  | step inputs => exact settle_fst_of_snd_ne fun t => hstepped t.status
  | tickTimers => exact absurd rfl hok
  | loadProgram bytes origin => exact settle_fst_of_snd_ne fun _ => hok

/-- Settles O21: a fault and a refusal are no kind of `Ok`. -/
theorem failedTransactionsChangeNothing : Obligations.FailedTransactionsChangeNothing := by
  unfold Obligations.FailedTransactionsChangeNothing
  exact fun s tr => ⟨fun f h => transact_fst_of_not_ok (by simp [h]) (by simp [h]),
    fun r h => transact_fst_of_not_ok (by simp [h]) (by simp [h])⟩

/-! ## Where a step's fault comes from -/

/-- The decoder rejects exactly the words that match no row, and those under strict decode alone (R104, R105). -/
theorem decode_error_iff (strict : Bool) (op : Word) (e : DecodeError) :
    decode strict op = .error e ↔ strict = true ∧ matchesNoRow op = true ∧ e = .unsupported op := by
  constructor
  · intro h
    obtain ⟨rfl, rfl⟩ := decode_error h
    obtain ⟨-, hwf, -⟩ := encodeOfDecodeIsTheWord false op _ (decode_false_of_strict_error h)
    exact ⟨rfl, (wellFormed_sysUnmatched_iff op).mp hwf, rfl⟩
  · rintro ⟨rfl, hrow, rfl⟩
    exact decode_of_matchesNoRow hrow true

/-- The fetch answers an instruction exactly where the word at a fetchable pc decodes to it (R132, R134). -/
theorem State.fetchInstr_ok_iff (s : State) (i : Instr) :
    s.fetchInstr = .ok i ↔ s.fetchable ∧ decode s.params.strictDecode s.wordAtPc = .ok i :=
  ⟨State.fetchInstr_ok, fun ⟨hf, hd⟩ => State.fetchInstr_of_decode_ok hf hd⟩

/-- At a fetchable pc the fetch faults with the word exactly where strict decode rejects it (R135, R314). -/
theorem State.fetchInstr_error_iff_of_fetchable {s : State} (hf : s.fetchable) (f : Fault) :
    s.fetchInstr = .error f ↔
      s.params.strictDecode = true ∧ matchesNoRow s.wordAtPc = true ∧ f = .unsupportedOpcode s.wordAtPc := by
  rw [State.fetchInstr_of_fetchable hf]
  cases hd : decode s.params.strictDecode s.wordAtPc with
  | error e =>
    obtain ⟨hstrict, hrow, -⟩ := (decode_error_iff _ _ e).mp hd
    simp [hstrict, hrow, eq_comm]
  | ok i =>
    refine ⟨nofun, fun ⟨hstrict, hrow, _⟩ => ?_⟩
    rw [(decode_error_iff _ _ _).mpr ⟨hstrict, hrow, rfl⟩] at hd
    cases hd

/-- The fetch faults past the last fetchable pc, and where strict decode rejects the word; the bound comes first (R133,
R135, R318). -/
theorem State.fetchInstr_error_iff (s : State) (f : Fault) :
    s.fetchInstr = .error f ↔
      (4095 ≤ s.pc.toNat ∧ f = .memoryOutOfBounds s.pc.toNat 2) ∨
      (s.fetchable ∧ s.params.strictDecode = true ∧ matchesNoRow s.wordAtPc = true ∧
        f = .unsupportedOpcode s.wordAtPc) := by
  rcases Nat.lt_or_ge 4094 s.pc.toNat with hgt | hf
  · have hnf : ¬s.fetchable := Nat.not_le.mpr hgt
    rw [State.fetchInstr_of_gt hgt, or_iff_left fun h => hnf h.1, and_iff_right (Nat.succ_le_of_lt hgt),
      Except.error.injEq, eq_comm]
  · have hlt : s.pc.toNat < 4095 := Nat.lt_succ_of_le hf
    rw [State.fetchInstr_error_iff_of_fetchable hf, or_iff_right fun h => Nat.not_le.mpr hlt h.1, and_iff_right hf]

/-- A step faults exactly where its fetch faults, or the fetched instruction does (R318). -/
theorem step_fault_iff (s : State) (f : Fault) :
    step s = .fault f ↔ s.fetchInstr = .error f ∨ ∃ i, s.fetchInstr = .ok i ∧ exec i s = .fault f := by
  refine ⟨step_fault, ?_⟩
  rintro (hfetch | ⟨i, hfetch, hexec⟩)
  · exact step_of_fetch_error hfetch
  · rw [step_of_fetch_ok hfetch, hexec, commit_fault]

/-! ## When an instruction faults -/

/-- A block access faults exactly where it has a byte past 4095 (R62, R311). -/
theorem withBounds_fault_iff (a n : Nat) (r : State) (f : Fault) :
    withBounds a n r = .fault f ↔ 0 < n ∧ 4095 < a + n - 1 ∧ f = .memoryOutOfBounds a n := by
  constructor
  · intro h
    obtain ⟨hn, hgt, hf⟩ := withBounds_fault h
    exact ⟨hn, by omega, hf⟩
  · rintro ⟨hn, hgt, rfl⟩
    exact withBounds_of_gt hn (by omega) r

/-- The six instructions that can fault, each with its condition and its information; no other does (R311 to R313,
R317). -/
theorem exec_fault_iff {s : State} (hdepth : s.stack.length ≤ s.params.stackDepth) (i : Instr) (f : Fault) :
    exec i s = .fault f ↔
      (∃ g, i = .ret g ∧ s.stack = [] ∧ f = .stackUnderflow) ∨
      (∃ nnn, i = .call nnn ∧ s.stack.length = s.params.stackDepth ∧ f = .stackOverflow) ∨
      (∃ x y n, i = .drw x y n ∧ 0 < n.toNat ∧ 4095 < s.i.toNat + n.toNat - 1 ∧
        f = .memoryOutOfBounds s.i.toNat n.toNat) ∨
      (∃ x, i = .ldBcd x ∧ 4095 < s.i.toNat + 2 ∧ f = .memoryOutOfBounds s.i.toNat 3) ∨
      (∃ x, (i = .ldRegsToMem x ∨ i = .ldMemToRegs x) ∧ 4095 < s.i.toNat + x.toNat ∧
        f = .memoryOutOfBounds s.i.toNat (x.toNat + 1)) := by
  cases i with
  | ret g => exact (execRet_fault_iff g s f).trans (by simp)
  | call nnn => exact (execCall_fault_iff nnn s f).trans (by simp [hdepth.ge_iff_eq])
  | drw x y n => exact (withBounds_fault_iff s.i.toNat n.toNat _ f).trans (by simp)
  | ldBcd x => exact (withBounds_fault_iff s.i.toNat 3 _ f).trans (by simp)
  | ldRegsToMem x => exact (withBounds_fault_iff s.i.toNat (x.toNat + 1) _ f).trans (by simp)
  | ldMemToRegs x => exact (withBounds_fault_iff s.i.toNat (x.toNat + 1) _ f).trans (by simp)
  | _ => exact iff_of_false nofun (by simp)

/-- Settles O12: the fetch's faults, then those of the fetched instruction. -/
theorem stepFaultsExactlyByTheTaxonomy : Obligations.StepFaultsExactlyByTheTaxonomy := by
  unfold Obligations.StepFaultsExactlyByTheTaxonomy
  intro s f hdepth
  rw [step_fault_iff, State.fetchInstr_error_iff, or_assoc]
  simp only [State.fetchInstr_ok_iff, exec_fault_iff hdepth, and_assoc, exists_and_left]

end Sys2Proof.Machine
end

section
/-! PROOFS. The family 70_reset_and_hazards.md: what a machine with zeroed memory does (R344). One step is
`step_of_mem_nil`; a run of them is an induction on the number of steps, with `ClearedBy` as what each step keeps. -/

namespace Sys2Proof.Machine

/-! ## A run, one step at a time -/

/-- A run that completes goes on with the step from where it ended. -/
theorem run_succ_of_next {M : Host.Core} {k : Nat} {s t : M.State} (h : M.run k s = .next t) :
    M.run (k + 1) s = M.step t := by
  induction k generalizing s with
  | zero =>
    obtain rfl : s = t := Host.Outcome.next.inj h
    rw [Host.Core.run]
    cases hstep : M.step s with
    | next u => rfl
    | fault f => rfl
    | refused r => rfl
  | succ k ih =>
    rw [Host.Core.run] at h ⊢
    cases hstep : M.step s with
    | next u =>
      rw [hstep] at h
      exact ih h
    | fault f => simp [hstep] at h
    | refused r => simp [hstep] at h

/-! ## Zeroed memory -/

/-- Where no byte of memory is set, the word at the pc is 0x0000, which is a CLS (R99). -/
theorem State.decode_wordAtPc_of_mem_nil {s : State} (hm : s.mem = []) (strict : Bool) :
    decode strict s.wordAtPc = .ok (.cls 0#8) := by
  have hword : s.wordAtPc = encode (.cls 0#8) := by
    rw [State.wordAtPc, hm, Memory.read_nil, Memory.read_nil]
    decide
  rw [hword]
  exact decode_encode rfl rfl

/-- On zeroed memory a step from a fetchable pc is a CLS (R270). -/
theorem step_of_mem_nil {s : State} (hm : s.mem = []) (hf : s.fetchable) :
    step s = .next (s.setFB Framebuffer.blank).advance.nextDraw :=
  step_of_fetch_ok (State.fetchInstr_of_decode_ok hf (State.decode_wordAtPc_of_mem_nil hm _))

/-- The state `t` is `s` after `k` steps that each cleared the screen: memory is zeroed, and what a CLS leaves alone is
as it was in `s`. -/
structure ClearedBy (s : State) (k : Nat) (t : State) : Prop where
  pc : t.pc.toNat = s.pc.toNat + 2 * k
  fb : 0 < k → ∀ px py, t.fb.pixel px py = false
  v : t.v = s.v
  i : t.i = s.i
  stack : t.stack = s.stack
  dt : t.dt = s.dt
  st : t.st = s.st
  mem : t.mem = []

theorem ClearedBy.refl {s : State} (hm : s.mem = []) : ClearedBy s 0 s where
  pc := rfl
  fb := fun h => absurd h (Nat.lt_irrefl 0)
  v := rfl
  i := rfl
  stack := rfl
  dt := rfl
  st := rfl
  mem := hm

theorem ClearedBy.succ {s t : State} {k : Nat} (h : ClearedBy s k t) (hf : t.fetchable) :
    ClearedBy s (k + 1) (t.setFB Framebuffer.blank).advance.nextDraw where
  pc := calc
    (t.pc + 2#16).toNat = t.pc.toNat + 2 := State.toNat_npc hf
    _ = s.pc.toNat + 2 * (k + 1) := by rw [h.pc, Nat.mul_succ, Nat.add_assoc]
  fb := fun _ => Framebuffer.pixel_blank
  v := h.v
  i := h.i
  stack := h.stack
  dt := h.dt
  st := h.st
  mem := h.mem

/-- On zeroed memory the machine runs on to the end of the address space. -/
theorem exists_run_of_mem_nil {s : State} (hm : s.mem = []) (k : Nat) (hk : s.pc.toNat + 2 * k ≤ 4096) :
    ∃ t : State, Host.Core.run Sys2Proof.core k s = .next t ∧ ClearedBy s k t := by
  induction k with
  | zero => exact ⟨s, rfl, ClearedBy.refl hm⟩
  | succ k ih =>
    obtain ⟨t, hrun, ht⟩ := ih (by omega)
    have hf : t.fetchable := by
      rw [State.fetchable, ht.pc]
      omega
    exact ⟨_, (run_succ_of_next hrun).trans (step_of_mem_nil ht.mem hf), ht.succ hf⟩

/-- On zeroed memory the step after the run to 0x1000 faults (R133). -/
theorem run_succ_of_mem_nil_fault {s : State} (hm : s.mem = []) {k : Nat} (hk : s.pc.toNat + 2 * k = 4096) :
    Host.Core.run Sys2Proof.core (k + 1) s = .fault (Fault.memoryOutOfBounds 0x1000 2) := by
  obtain ⟨t, hrun, ht⟩ := exists_run_of_mem_nil hm k hk.le
  have hpc : t.pc.toNat = 4096 := ht.pc.trans hk
  have hfault : step t = .fault (.memoryOutOfBounds t.pc.toNat 2) := fetchPastTheEndFaults t (by omega)
  rw [hpc] at hfault
  exact (run_succ_of_next hrun).trans hfault

/-- Settles O18: the zeroed word is a CLS, so each step clears and advances; by induction on the number of steps the run
gets from 0x200 to 0x1000, where the fetch bound faults. -/
theorem zeroedMemoryRunsToItsEnd : Obligations.ZeroedMemoryRunsToItsEnd := by
  unfold Obligations.ZeroedMemoryRunsToItsEnd
  refine ⟨⟨rfl, rfl⟩, fun s hm => ⟨fun hf => ?_, fun hpc => ?_⟩⟩
  · exact ⟨Framebuffer.blank, Framebuffer.pixel_blank, step_of_mem_nil hm hf⟩
  · have hstart : s.pc.toNat = 0x200 := by rw [hpc]; rfl
    refine ⟨fun k hk => ?_, run_succ_of_mem_nil_fault hm (k := 1792) (by omega)⟩
    obtain ⟨t, hrun, ht⟩ := exists_run_of_mem_nil hm k (by omega)
    exact ⟨t, hrun, hstart ▸ ht.pc, ht.fb, ht.v, ht.i, ht.stack, ht.dt, ht.st, ht.mem⟩

end Sys2Proof.Machine
end

section
/-! PROOFS. The words written out from the encodings. The word of a row decodes to its instruction by `decode_encode`,
so all that is left of a written-out word is that it is the encoding; 5121, which is no row's, is R107's UNMATCHED by
`decode_of_matchesNoRow`. -/

namespace Sys2Proof.Machine

/-- A word that is the encoding of a well-formed instruction decodes to it. -/
theorem decode_of_encode_eq {strict : Bool} {i : Instr} {op : Word} (hop : encode i = op) (hwf : WellFormed i)
    (hi : i.allowed strict = true) : decode strict op = .ok i :=
  hop ▸ decode_encode hwf hi

/-- The word 5121 would be SE_REG V1,V2 but for its low nibble, which R101 requires to be 0. -/
theorem matchesNoRow_0x5121 : matchesNoRow 0x5121#16 = true := by decide

/-- Settles O1: eleven words are encodings of rows, and 5121 has no row, so the policy alone decides its answer. -/
theorem decodesWordsOfTheEncodingTable : Obligations.DecodesWordsOfTheEncodingTable := by
  unfold Obligations.DecodesWordsOfTheEncodingTable
  exact ⟨decode_of_encode_eq rfl rfl rfl, decode_of_encode_eq rfl rfl rfl, decode_of_encode_eq rfl rfl rfl,
    decode_of_encode_eq rfl rfl rfl, decode_of_encode_eq rfl rfl rfl, decode_of_encode_eq rfl rfl rfl,
    decode_of_encode_eq rfl rfl rfl, decode_of_encode_eq rfl rfl rfl, decode_of_encode_eq rfl rfl rfl,
    decode_of_encode_eq rfl rfl rfl, decode_of_encode_eq rfl rfl rfl,
    decode_of_matchesNoRow matchesNoRow_0x5121 false, decode_of_matchesNoRow matchesNoRow_0x5121 true⟩

end Sys2Proof.Machine
end
